-- ==== Sys2Proof/Word.lean ====
section
/-! DEFINITION. The two words of the block: the byte of both transports and the bit string of the wire
(spec/00_scope.md section 5, spec/20_memory.md R31). -/
namespace Sys2Proof

/-- A byte of the sink or source stream, an integer in 0 to 255 (spec/00_scope.md section 5). -/
abbrev Byte := BitVec 8

/-- A bit string in stream order, first bit first (spec/00_scope.md section 5). -/
abbrev BitString := List Bool

end Sys2Proof
end

