-- ==== Sys2Proof/Config.lean ====
section
/-! DEFINITION. The implementation parameters of the block (spec/00_scope.md R8). They are fixed when the
block is built; State carries one record of them that no operation writes (R28), so that every statement
about the model speaks of every choice of them. -/
namespace Sys2Proof

/-- The parameters R8 leaves to the builder; the derived ones (MAG_MAX, NBITS_MAX, CW_MAX) are in
Machine/Operands.lean. -/
structure Params where
  /-- `W`: width of a value and of the decoder's accumulator. -/
  W : Nat
  /-- `PW`: width of the pattern of BW.APPEND, and its largest count. -/
  PW : Nat
  /-- `CAPW`: width of the cap operand and of the count of DEC.READ. -/
  CAPW : Nat
  /-- `HAS_IO_ERR`: whether the transports can report a failure. -/
  hasIoErr : Bool
  deriving DecidableEq, Repr

/-- The value this hardware takes for each parameter (R8's column "default"). -/
def Params.default : Params := { W := 32, PW := 64, CAPW := 32, hasIoErr := false }

end Sys2Proof
end

