-- ==== Sys2Proof/Machine/Bits.lean ====
section
/-! DEFINITION. Numbers, bit strings and bytes: the notation of spec/00_scope.md section 5 and the packing
of bits into bytes (spec/20_memory.md R33, spec/30_encoding.md R58). -/
namespace Sys2Proof

/-- `low(v, n)`: the `n` low-order bits of `v`. -/
def low (v n : Nat) : Nat := v % 2 ^ n

/-- `bitLength(x)` for `x >= 1`: the `n` with `2^(n-1) <= x < 2^n`. No rule applies it to 0. -/
def bitLength (x : Nat) : Nat := x.log2 + 1

/-- `num_n(v)`: the `n`-bit string of `v`, most significant bit first; bits of `v` above `n` are ignored. -/
def numBits : Nat → Nat → BitString
  | 0, _ => []
  | n + 1, v => v.testBit n :: numBits n v

/-- The number a bit string spells, first bit most significant. -/
def bitsNat (bits : BitString) : Nat := bits.foldl (fun a b => 2 * a + b.toNat) 0

/-- The bits of a byte in stream order: bit 7 first (R33). -/
def byteBits (b : Byte) : BitString := numBits 8 b.toNat

/-- The bit string that a byte sequence carries (R33, R34). -/
def bytesBits (bytes : List Byte) : BitString := bytes.flatMap byteBits

/-- `pack(s)` for a bit string whose length is a multiple of 8 (R58); a tail of fewer than eight bits
is no byte. -/
def pack : BitString → List Byte
  | b7 :: b6 :: b5 :: b4 :: b3 :: b2 :: b1 :: b0 :: rest =>
    BitVec.ofNat 8 (bitsNat [b7, b6, b5, b4, b3, b2, b1, b0]) :: pack rest
  | _ => []

/-- `(-L) mod 8`: how many zero bits close adds to `L` bits (spec/20_memory.md R35). -/
def padLen (len : Nat) : Nat := (8 - len % 8) % 8

/-- `pack(s ++ 0^((-L) mod 8))` (R58). -/
def packPadded (bits : BitString) : List Byte :=
  pack (bits ++ List.replicate (padLen bits.length) false)

end Sys2Proof
end

