-- ==== Sys2Proof/Machine/Operands.lean ====
section
/-! DEFINITION. The operands: the bounds the parameters give (spec/00_scope.md R8, R9), the numbers on the
operand ports (R8, R63), and an integer's codeword (spec/40_codeword_encoder.md R67,
spec/30_encoding.md R50, R56). -/
namespace Sys2Proof

/-- `MAG_MAX = 2^(W-1) - 2` (R8, R9). -/
def Params.magMax (p : Params) : Int := 2 ^ (p.W - 1) - 2

/-- `NBITS_MAX = W - 2` (R8, R9). -/
def Params.nbitsMax (p : Params) : Nat := p.W - 2

/-- `CW_MAX = 2*NBITS_MAX + 2` (R8). -/
def Params.cwMax (p : Params) : Nat := 2 * p.nbitsMax + 2

/-- The constraints R8 puts on the parameters. -/
abbrev Params.Valid (p : Params) : Prop := 3 ≤ p.W ∧ p.W ≤ p.PW ∧ 1 ≤ p.CAPW

/-- An item is in range when `-MAG_MAX <= item <= MAG_MAX` (R9). -/
abbrev InRange (p : Params) (item : Int) : Prop := -p.magMax ≤ item ∧ item ≤ p.magMax

/-- A value fits a `W`-bit two's-complement port (R8). -/
abbrev FitsValue (p : Params) (v : Int) : Prop := -(2 ^ (p.W - 1)) ≤ v ∧ v < 2 ^ (p.W - 1)

/-- The item that the number on the port enc_item stands for: two's complement in `W` bits (R8, D3). -/
def portItem (p : Params) (raw : Nat) : Int := (BitVec.ofNat p.W raw).toInt

/-- The number on the port enc_item for an item. -/
def itemPort (p : Params) (item : Int) : Nat := (BitVec.ofInt p.W item).toNat

/-- The cap that the number on the port dec_cap stands for: `CAPW` bits, unsigned (R8). -/
def portCap (p : Params) (raw : Nat) : Nat := raw % 2 ^ p.CAPW

/-- `sign(item)` of R67, as a bit: 1 for a negative item. -/
def signBit (item : Int) : Bool := decide (item < 0)

/-- `magnitude(item)` of R67. -/
def magnitude (item : Int) : Nat := item.natAbs

/-- `biased(item) = magnitude + 1` (R67). -/
def biased (item : Int) : Nat := magnitude item + 1

/-- `nbits(item) = bitLength(biased) - 1` (R67). -/
def nbits (item : Int) : Nat := bitLength (biased item) - 1

/-- `cw(item)`: the codeword of an integer (R67). -/
def cw (item : Int) : BitString :=
  if item = 0 then [true]
  else
    List.replicate (nbits item) false ++
      true :: (numBits (nbits item) (low (biased item) (nbits item)) ++ [signBit item])

/-- The codewords of a sequence of integers, one after another (R58). -/
def cws (items : List Int) : BitString := items.flatMap cw

/-- The bits of a codeword with prefix length `k`, magnitude field `m` and sign bit `neg` (R50, R51):
in class 0 the single bit 1. -/
def codewordBits (k m : Nat) (neg : Bool) : BitString :=
  if k = 0 then [true]
  else List.replicate k false ++ true :: (numBits k m ++ [neg])

/-- The integer that the fields of a codeword stand for (R56). -/
def codewordValue (k m : Nat) (neg : Bool) : Int :=
  if k = 0 then 0
  else if neg then -((2 ^ k + m : Nat) - 1 : Int) else ((2 ^ k + m : Nat) - 1 : Int)

end Sys2Proof
end

