-- ==== Sys2Proof/Syntax.lean ====
section
/-! DEFINITION. The instructions: one constructor per row of spec/opcode_table.json, that is the seven host
commands (spec/30_encoding.md R62, R63) and the thirty-one codeword classes of W = 32 (R51, R53). -/
namespace Sys2Proof

/-- One row of the opcode table with its operands. In a codeword class `m` is the magnitude field, first
bit most significant, and `neg` is the sign bit (R50). -/
inductive Instr where
  | encNop
  /-- `item` is the signed integer that the port enc_item carries. -/
  | encPut (item : Int)
  | encClose
  | encRst
  | decNop
  /-- `cap` is the capacity that the port dec_cap carries. -/
  | decRead (cap : Nat)
  | decRst
  | cwK0
  | cwK1 (m : BitVec 1) (neg : Bool)
  | cwK2 (m : BitVec 2) (neg : Bool)
  | cwK3 (m : BitVec 3) (neg : Bool)
  | cwK4 (m : BitVec 4) (neg : Bool)
  | cwK5 (m : BitVec 5) (neg : Bool)
  | cwK6 (m : BitVec 6) (neg : Bool)
  | cwK7 (m : BitVec 7) (neg : Bool)
  | cwK8 (m : BitVec 8) (neg : Bool)
  | cwK9 (m : BitVec 9) (neg : Bool)
  | cwK10 (m : BitVec 10) (neg : Bool)
  | cwK11 (m : BitVec 11) (neg : Bool)
  | cwK12 (m : BitVec 12) (neg : Bool)
  | cwK13 (m : BitVec 13) (neg : Bool)
  | cwK14 (m : BitVec 14) (neg : Bool)
  | cwK15 (m : BitVec 15) (neg : Bool)
  | cwK16 (m : BitVec 16) (neg : Bool)
  | cwK17 (m : BitVec 17) (neg : Bool)
  | cwK18 (m : BitVec 18) (neg : Bool)
  | cwK19 (m : BitVec 19) (neg : Bool)
  | cwK20 (m : BitVec 20) (neg : Bool)
  | cwK21 (m : BitVec 21) (neg : Bool)
  | cwK22 (m : BitVec 22) (neg : Bool)
  | cwK23 (m : BitVec 23) (neg : Bool)
  | cwK24 (m : BitVec 24) (neg : Bool)
  | cwK25 (m : BitVec 25) (neg : Bool)
  | cwK26 (m : BitVec 26) (neg : Bool)
  | cwK27 (m : BitVec 27) (neg : Bool)
  | cwK28 (m : BitVec 28) (neg : Bool)
  | cwK29 (m : BitVec 29) (neg : Bool)
  | cwK30 (m : BitVec 30) (neg : Bool)
  deriving DecidableEq, Repr

/-- What stands on a wire before it is decoded: a command code with its operand port, on one of the two
command ports (R63), or bits of the source stream (R50). The operand of a port is the number its wires
carry. -/
inductive Wire where
  | encCmd (code : BitVec 2) (item : Nat)
  | decCmd (code : BitVec 2) (cap : Nat)
  | codeword (bits : BitString)
  deriving DecidableEq, Repr

end Sys2Proof
end

