-- ==== Sys2Proof/Machine/State.lean ====
section
/-! DEFINITION. The state of the machine, as plain data: unit ENC (spec/10_state.md R13, R14, R22), unit DEC
(R15, R16, R18, R23), and the environment's state that the units act on (R11, R21); the state after reset
(R26, R27, R28); and the reasons a step can stop. -/
namespace Sys2Proof.Machine

/-- Why the machine stops. No rule of the spec stops it: an outcome of spec/60_exceptions.md R103 is a
next state. These two are the states that spec/93_implementation_defined.md U11 calls unreachable and lets a
model in register form treat as stuck. -/
inductive Fault where
  /-- Raised by ENC.PUT and ENC.CLOSE when `enc.pos` is 8 or more in a unit that is neither faulted nor
  closed (U11). Safe: the model stops, and no run from reset gets here. -/
  | encIllegalState
  /-- Raised by DEC.READ and by the codeword classes when `dec.left` is above 8, or `dec.rem` is 0 in
  ShiftingBits (U11). Safe: the model stops, and no run from reset gets here. -/
  | decIllegalState
  deriving DecidableEq, Repr

/-- Why an instruction has no meaning in the model. A refusal of spec/60_exceptions.md R108 is none of
these: it is a next state that reports the refusal (`RefReason`). -/
inductive Refusal where
  /-- An arm of exec whose instruction has no meaning yet. No arm raises it. Safe. -/
  | notModelled (mnemonic : String)
  deriving DecidableEq, Repr

/-- The outcomes that spec/60_exceptions.md R103 numbers. -/
inductive OutcomeCode where
  | none
  | endOfStream
  | ioFailSink
  | ioFailSource
  | decOverrange
  deriving DecidableEq, Repr

/-- The closed list of refusals of spec/60_exceptions.md R108. -/
inductive RefReason where
  | encFaulted
  | encClosed
  | encRange
  | decFaulted
  | reservedCmd
  | appendCount
  | busy
  | deltaRange
  deriving DecidableEq, Repr

/-- One entry of the sink trace: a byte handed to SinkWrite, or the marker `F` (R21, R74, R75). -/
inductive SinkItem where
  | byte (b : Byte)
  | flush
  deriving DecidableEq, Repr

/-- What the BitSink answers to one call; `never` is a call that is not answered at all
(spec/20_memory.md R46, spec/70_reset_and_hazards.md R134). -/
inductive SinkAnswer where
  | ok
  | fail
  | never
  deriving DecidableEq, Repr

/-- What the BitSource answers to one SourceRead (R81); `never` is a call that is not answered at all. -/
inductive SourceAnswer where
  | byte (b : Byte)
  | exhausted
  | fail
  | never
  deriving DecidableEq, Repr

/-- How the BitSource will treat one SourceRead: serve it from the source content, fail it, or leave it
unanswered. -/
inductive SourceTurn where
  | serve
  | fail
  | never
  deriving DecidableEq, Repr

/-- The tag `dec.st` of the decoder FSM (R17, R18). The number 3, which is never written, is no tag. -/
inductive FsmTag where
  | countingZeros
  | shiftingBits
  | readingSign
  deriving DecidableEq, Repr

/-- The canonical form of the FSM state (R16); the map from the register form is `Dec.fsm` in
Machine/Fsm.lean. -/
inductive FsmState where
  | countingZeros (zc : Nat)
  | shiftingBits (acc rem : Nat)
  | readingSign (mag : Nat)
  deriving DecidableEq, Repr

/-- The state of unit ENC (R13, R14, R22). -/
structure Enc where
  /-- `enc.acc`: the pending byte, left-aligned. -/
  acc : BitVec 8
  /-- `enc.pos`: how many bits of `acc` are filled. 0 to 7 between operations; 8 inside BW.BIT and after
  a failed write (R76). -/
  pos : Nat
  /-- `enc.closed` (R14). -/
  closed : Bool
  /-- `enc.fault` (R14). -/
  fault : Bool
  /-- `ENC_STATUS.CAUSE` (R22). -/
  cause : OutcomeCode
  deriving DecidableEq, Repr

/-- The state of unit DEC in register form (R15, R18, R23). -/
structure Dec where
  /-- `dec.st`. -/
  st : FsmTag
  /-- `dec.zc`: the running zero count, a natural number (R18, D15). -/
  zc : Nat
  /-- `dec.acc`: the magnitude accumulator. -/
  acc : Nat
  /-- `dec.rem`: the remaining-bits counter. -/
  rem : Nat
  /-- `dec.cur`: the loaded source byte. -/
  cur : BitVec 8
  /-- `dec.left`: how many bits of `cur` are not yet consumed, 0 to 8. -/
  left : Nat
  /-- `dec.eos`: the exhaustion latch. -/
  eos : Bool
  /-- `dec.fault` (R23). -/
  fault : Bool
  /-- `dec.cause` (R23). -/
  cause : OutcomeCode
  deriving DecidableEq, Repr

/-- How the last operation of unit ENC other than ENC.NOP ended, as its caller sees it (R103, R108, and
the outputs enc_done and enc_refused of spec/20_memory.md R47). -/
inductive EncResult where
  /-- No operation since power-on. -/
  | idle
  | returned
  | faulted (code : OutcomeCode)
  | refused (r : RefReason)
  /-- The operation waits for a transport call that is never answered. -/
  | waiting
  deriving DecidableEq, Repr

/-- How the last operation of unit DEC other than DEC.NOP ended, as its caller sees it (R89, R103, R113,
and the outputs dec_done, dec_count and dec_refused of spec/20_memory.md R47). -/
inductive DecResult where
  /-- No operation since power-on. -/
  | idle
  /-- DEC.RST returned. -/
  | returned
  /-- DEC.READ returned this count and this `eos`. -/
  | read (count : Nat) (eos : Bool)
  /-- DEC.READ ended in a fault after storing `count` values. -/
  | faulted (code : OutcomeCode) (count : Nat)
  /-- Refused; dec_count is 0. -/
  | refused (r : RefReason)
  /-- The operation waits for a transport call that is never answered. -/
  | waiting
  deriving DecidableEq, Repr

/-- The host's side of unit ENC. -/
structure EncPort where
  /-- An operation is in progress and has not returned: enc_cmd_ready is 0 (R47, R129). -/
  busy : Bool
  result : EncResult
  /-- The first refusal of the run: the model marks the run as refused (R108). A run begins at the unit's
  reset (R29, R136). -/
  marked : Option RefReason
  deriving DecidableEq, Repr

/-- The host's side of unit DEC. -/
structure DecPort where
  /-- An operation is in progress and has not returned: dec_cmd_ready is 0 (R47, R129). -/
  busy : Bool
  result : DecResult
  /-- The first refusal of the run (R108). -/
  marked : Option RefReason
  deriving DecidableEq, Repr

/-- The BitSink as unit ENC sees it. -/
structure Sink where
  /-- The sink trace since ENC.RST, oldest first (R21). -/
  trace : List SinkItem
  /-- What was handed over before that ENC.RST: bytes already written stay where they went (R123). -/
  past : List SinkItem
  /-- The answers the BitSink will give, one a call; after the last of them every answer is Ok (R11). -/
  plan : List SinkAnswer
  deriving DecidableEq, Repr

/-- The BitSource as unit DEC sees it. -/
structure Source where
  /-- The source content: the bytes the BitSource will still deliver (R21). -/
  content : List Byte
  /-- The answers SourceRead has given since DEC.RST, oldest first (R36, R83). -/
  trace : List SourceAnswer
  /-- How the BitSource will treat the next calls, one a call; after the last of them every call is
  served (R11). -/
  plan : List SourceTurn
  deriving DecidableEq, Repr

/-- One line of the host's trace that is still to come (spec/30_encoding.md R64): a command on a port, with
the number on its operand port, or the environment setting the source content. -/
inductive HostLine where
  | encCmd (code : BitVec 2) (item : Nat)
  | decCmd (code : BitVec 2) (cap : Nat)
  | src (bytes : List Byte)
  deriving DecidableEq, Repr

/-- The machine: one ENC unit, one DEC unit, and the environment around them. -/
structure State where
  /-- The implementation parameters (R8); no step writes them (R28). -/
  params : Params
  enc : Enc
  encPort : EncPort
  sink : Sink
  dec : Dec
  decPort : DecPort
  source : Source
  /-- The output buffer of DEC.READ: slot `i` is entry `i`; a slot beyond the last entry is one no
  DEC.READ has written, and holds what the host left there (R21, R39). -/
  out : List Int
  /-- The lines of the host's trace still to come, next first (R11, R64). -/
  pending : List HostLine
  deriving DecidableEq, Repr

/-- Unit ENC after ENC.RST (R26). -/
def Enc.reset : Enc := { acc := 0, pos := 0, closed := false, fault := false, cause := .none }

/-- Unit DEC after DEC.RST (R27). -/
def Dec.reset : Dec :=
  { st := .countingZeros, zc := 0, acc := 0, rem := 0, cur := 0, left := 0, eos := false,
    fault := false, cause := .none }

/-- The machine after power-on reset (R26, R27), with an environment that has done nothing yet: an empty
source, an output buffer no one has written, no command issued (log entries 4 and 5). -/
def State.reset : State :=
  { params := Params.default
    enc := Enc.reset
    encPort := { busy := false, result := .idle, marked := none }
    sink := { trace := [], past := [], plan := [] }
    dec := Dec.reset
    decPort := { busy := false, result := .idle, marked := none }
    source := { content := [], trace := [], plan := [] }
    out := []
    pending := [] }

end Sys2Proof.Machine
end

