-- ==== Sys2Proof/Machine/Ops.lean ====
section
/-! DEFINITION. The shared operations: the transports (spec/41_bitwriter.md R74, R75, spec/42_bitreader.md
R81), raising a fault and refusing (spec/60_exceptions.md R105 to R108, R112), the micro-operations BW.BIT,
BW.APPEND, BW.CLOSE (R76 to R79), BR.NEXTBIT (R82) and DEC.STEP (spec/43_decoder_fsm.md R85 to R88), and the
loop of DEC.READ (R89). -/
namespace Sys2Proof.Machine

/-- What the micro-operations of unit ENC work on: the unit and its sink. -/
structure Writer where
  enc : Enc
  sink : Sink
  deriving DecidableEq, Repr

/-- What the operations of unit DEC work on: the unit, its source, and the output buffer. -/
structure Reader where
  dec : Dec
  source : Source
  out : List Int
  deriving DecidableEq, Repr

/-- The ENC side of a state. -/
def State.writer (s : State) : Writer := { enc := s.enc, sink := s.sink }

/-- The DEC side of a state. -/
def State.reader (s : State) : Reader := { dec := s.dec, source := s.source, out := s.out }

/-- Puts an ENC side back into a state. -/
def State.withWriter (s : State) (w : Writer) : State := { s with enc := w.enc, sink := w.sink }

/-- Puts a DEC side back into a state. -/
def State.withReader (s : State) (r : Reader) : State :=
  { s with dec := r.dec, source := r.source, out := r.out }

/-- Reports how an operation of unit ENC ended. -/
def State.withEncResult (s : State) (x : EncResult) : State :=
  { s with encPort := { s.encPort with result := x } }

/-- Reports how an operation of unit DEC ended. -/
def State.withDecResult (s : State) (x : DecResult) : State :=
  { s with decPort := { s.decPort with result := x } }

/-! ### Faults and refusals -/

/-- Raises a fault in unit ENC: the flag is set and CAUSE takes the code of the first fault
(R105, R107). -/
def encRaise (code : OutcomeCode) (e : Enc) : Enc :=
  if e.fault then e else { e with fault := true, cause := code }

/-- Raises a fault in unit DEC (R105, R106, R107). -/
def decRaise (code : OutcomeCode) (d : Dec) : Dec :=
  if d.fault then d else { d with fault := true, cause := code }

/-- A run already marked keeps its first mark (R108). -/
def firstMark (old : Option RefReason) (r : RefReason) : Option RefReason :=
  match old with
  | some q => some q
  | none => some r

/-- Refuses an operation of unit ENC: the refusal is reported, the run is marked, and no state of the unit
or its sink changes (R108). -/
def encRefuse (r : RefReason) (s : State) : State :=
  { s with
    encPort :=
      { s.encPort with result := .refused r, marked := firstMark s.encPort.marked r } }

/-- Refuses an operation of unit DEC (R108). -/
def decRefuse (r : RefReason) (s : State) : State :=
  { s with
    decPort :=
      { s.decPort with result := .refused r, marked := firstMark s.decPort.marked r } }

/-- A command offered to an ENC unit whose operation has not returned (R129): the refusal marks the run,
and the operation in progress goes on waiting. -/
def encRefuseBusy (s : State) : State :=
  { s with encPort := { s.encPort with marked := firstMark s.encPort.marked .busy } }

/-- A command offered to a DEC unit whose operation has not returned (R129). -/
def decRefuseBusy (s : State) : State :=
  { s with decPort := { s.decPort with marked := firstMark s.decPort.marked .busy } }

/-! ### The sink -/

/-- The answer the BitSink gives to the next call: a `Fail` only when HAS_IO_ERR (R74). -/
def Sink.answer (p : Params) (k : Sink) : SinkAnswer :=
  match k.plan.headD .ok with
  | .ok => .ok
  | .fail => if p.hasIoErr then .fail else .ok
  | .never => .never

/-- One call of the BitSink with one trace entry: the entry is appended on `Ok` and only then
(R74, R75). -/
def sinkCall (p : Params) (x : SinkItem) (k : Sink) : SinkAnswer × Sink :=
  match k.answer p with
  | .ok => (.ok, { k with trace := k.trace ++ [x], plan := k.plan.tail })
  | a => (a, { k with plan := k.plan.tail })

/-- `SinkWrite(b)` (R74). -/
def sinkWrite (p : Params) (b : Byte) (k : Sink) : SinkAnswer × Sink := sinkCall p (.byte b) k

/-- `SinkFlush()` (R75). -/
def sinkFlush (p : Params) (k : Sink) : SinkAnswer × Sink := sinkCall p .flush k

/-! ### The writer -/

/-- How a micro-operation of the writer ends. -/
inductive BwResult where
  | ok (w : Writer)
  /-- Ended by a fault (R105). -/
  | raised (code : OutcomeCode) (w : Writer)
  /-- Waits for a transport call that is never answered (R46). -/
  | blocked (w : Writer)
  /-- Refused (R108). -/
  | refused (r : RefReason)
  deriving DecidableEq, Repr

/-- Goes on after a micro-operation that ended well, and ends where it ended otherwise. -/
def BwResult.andThen (x : BwResult) (f : Writer → BwResult) : BwResult :=
  match x with
  | .ok w => f w
  | .raised c w => .raised c w
  | .blocked w => .blocked w
  | .refused r => .refused r

/-- Ends a transport call of the writer: `Fail` sets the fault (R105), and a call that is never answered
leaves the operation waiting. -/
def sinkDone (e : Enc) (r : SinkAnswer × Sink) (f : Sink → BwResult) : BwResult :=
  match r.1 with
  | .ok => f r.2
  | .fail => .raised .ioFailSink { enc := encRaise .ioFailSink e, sink := r.2 }
  | .never => .blocked { enc := e, sink := r.2 }

/-- The byte with bit `i` equal to `b` and all other bits zero. -/
def bitAt (b : Bool) (i : Nat) : BitVec 8 := if b then 1#8 <<< i else 0#8

/-- `BW.BIT b` (R76). -/
def bwBit (p : Params) (b : Bool) (w : Writer) : BwResult :=
  let e : Enc := { w.enc with acc := w.enc.acc ||| bitAt b (7 - w.enc.pos), pos := w.enc.pos + 1 }
  if e.pos = 8 then
    sinkDone e (sinkWrite p e.acc w.sink) fun k => .ok { enc := { e with acc := 0, pos := 0 }, sink := k }
  else .ok { enc := e, sink := w.sink }

/-- BW.BIT for each bit of a string in order. -/
def bwBits (p : Params) (bits : BitString) (w : Writer) : BwResult :=
  match bits with
  | [] => .ok w
  | b :: rest => (bwBit p b w).andThen (bwBits p rest)

/-- `BW.APPEND pattern, count` (R77). -/
def bwAppend (p : Params) (pattern count : Nat) (w : Writer) : BwResult :=
  if p.PW < count then .refused .appendCount else bwBits p (numBits count pattern) w

/-- The whole intermediate bytes of the chunked form (R78 (b)): `n` of them, then the bits that begin the
next byte (R78 (c)). -/
def bwWholeBytes (p : Params) (v : Nat) (n rest : Nat) (w : Writer) : BwResult :=
  match n with
  | 0 => .ok { w with enc := { w.enc with acc := BitVec.ofNat 8 (low v rest <<< (8 - rest)), pos := rest } }
  | n + 1 =>
    sinkDone w.enc (sinkWrite p (BitVec.ofNat 8 (v >>> (8 * n + rest))) w.sink) fun k =>
      bwWholeBytes p v n rest { w with sink := k }

/-- The chunked form of BW.APPEND (R78): the bits that complete the pending byte, the whole intermediate
bytes, the bits that begin the next. -/
def bwAppendChunked (p : Params) (pattern count : Nat) (w : Writer) : BwResult :=
  let v := low pattern count
  let free := 8 - w.enc.pos
  if p.PW < count then .refused .appendCount
  else if count < free then
    .ok { w with
      enc := { w.enc with
        acc := w.enc.acc ||| BitVec.ofNat 8 (v <<< (free - count)), pos := w.enc.pos + count } }
  else
    sinkDone w.enc
      (sinkWrite p (w.enc.acc ||| BitVec.ofNat 8 (v >>> (count - free))) w.sink) fun k =>
        bwWholeBytes p v ((count - free) / 8) ((count - free) % 8) { w with sink := k }

/-- The partial byte of a close, if there is one (R79). -/
def bwPad (p : Params) (w : Writer) : BwResult :=
  if 0 < w.enc.pos then
    sinkDone w.enc (sinkWrite p w.enc.acc w.sink) fun k =>
      .ok { enc := { w.enc with acc := 0, pos := 0 }, sink := k }
  else .ok w

/-- `BW.CLOSE` (R79). -/
def bwClose (p : Params) (w : Writer) : BwResult :=
  (bwPad p w).andThen fun w1 =>
    sinkDone w1.enc (sinkFlush p w1.sink) fun k => .ok { w1 with sink := k }

/-- The unit is in a state that R76 leaves only within a step or after a fault (U11). -/
def Enc.illegal (e : Enc) : Bool := decide (8 ≤ e.pos)

/-- Ends an operation of unit ENC begun in `s`: the outcome is reported to the host (R112), a refusal
changes nothing else (R108). -/
def finishEnc (s : State) (x : BwResult) : Host.Outcome State Fault Refusal :=
  match x with
  | .ok w => .next ((s.withWriter w).withEncResult .returned)
  | .raised c w => .next ((s.withWriter w).withEncResult (.faulted c))
  | .blocked w =>
    .next { s.withWriter w with encPort := { s.encPort with busy := true, result := .waiting } }
  | .refused r => .next (encRefuse r s)

/-! ### The source -/

/-- How the BitSource treats the next call: a failure only when HAS_IO_ERR (R81). -/
def Source.turn (p : Params) (k : Source) : SourceTurn :=
  match k.plan.headD .serve with
  | .serve => .serve
  | .fail => if p.hasIoErr then .fail else .serve
  | .never => .never

/-- `SourceRead()` (R81): the first byte of the content, or `Exhausted` when there is none, or `Fail`. -/
def sourceRead (p : Params) (k : Source) : SourceAnswer × Source :=
  match k.turn p with
  | .never => (.never, { k with plan := k.plan.tail })
  | .fail => (.fail, { k with trace := k.trace ++ [.fail], plan := k.plan.tail })
  | .serve =>
    match k.content with
    | [] => (.exhausted, { k with trace := k.trace ++ [.exhausted], plan := k.plan.tail })
    | b :: rest =>
      (.byte b, { content := rest, trace := k.trace ++ [.byte b], plan := k.plan.tail })

/-! ### The reader -/

/-- How BR.NEXTBIT ends. -/
inductive BrResult where
  | bit (b : Bool) (r : Reader)
  /-- A normal result (R104). -/
  | endOfStream (r : Reader)
  | raised (code : OutcomeCode) (r : Reader)
  /-- Waits for a SourceRead that is never answered (R46). -/
  | blocked (r : Reader)
  deriving DecidableEq, Repr

/-- The last two lines of R82: takes the next bit of the loaded byte, bit 7 first. -/
def takeLoaded (r : Reader) : BrResult :=
  .bit (r.dec.cur.getLsbD (r.dec.left - 1)) { r with dec := { r.dec with left := r.dec.left - 1 } }

/-- `BR.NEXTBIT` (R82). -/
def brNextBit (p : Params) (r : Reader) : BrResult :=
  if r.dec.left = 0 then
    if r.dec.eos then .endOfStream r
    else
      match sourceRead p r.source with
      | (.fail, k) => .raised .ioFailSource { r with dec := decRaise .ioFailSource r.dec, source := k }
      | (.exhausted, k) => .endOfStream { r with dec := { r.dec with eos := true }, source := k }
      | (.never, k) => .blocked { r with source := k }
      | (.byte b, k) => takeLoaded { r with dec := { r.dec with cur := b, left := 8 }, source := k }
  else takeLoaded r

/-! ### The decoder FSM -/

/-- How DEC.STEP ends: nothing, one emitted value, or a fault (R85). -/
inductive StepResult where
  | quiet (d : Dec)
  | emit (v : Int) (d : Dec)
  | raised (code : OutcomeCode) (d : Dec)
  deriving DecidableEq, Repr

/-- `DEC.STEP b` (R85) in CountingZeros (R86), ShiftingBits (R87) and ReadingSign (R88). -/
def decStep (p : Params) (b : Bool) (d : Dec) : StepResult :=
  match d.st with
  | .countingZeros =>
    if b = false then .quiet { d with zc := d.zc + 1 }
    else if d.zc = 0 then .emit 0 d
    else if p.nbitsMax < d.zc then .raised .decOverrange (decRaise .decOverrange d)
    else .quiet { d with acc := 1, rem := d.zc, st := .shiftingBits }
  | .shiftingBits =>
    let acc := 2 * d.acc + b.toNat
    if d.rem - 1 = 0 then .quiet { d with acc := acc - 1, rem := 0, st := .readingSign }
    else .quiet { d with acc := acc, rem := d.rem - 1 }
  | .readingSign =>
    .emit (if b then -(d.acc : Int) else d.acc) { d with zc := 0, st := .countingZeros }

/-- Writes slot `n` of the output buffer (R39). -/
def writeSlot (n : Nat) (v : Int) (out : List Int) : List Int := out.take n ++ v :: out.drop (n + 1)

/-- How the loop of DEC.READ ends, with the count of values stored. -/
inductive ReadEnd where
  | returned (count : Nat) (eos : Bool) (r : Reader)
  | faulted (code : OutcomeCode) (count : Nat) (r : Reader)
  | blocked (count : Nat) (r : Reader)
  deriving DecidableEq, Repr

/-- One bit through the FSM inside DEC.READ: an emitted value goes to slot `n` (R89). -/
def feedBit (p : Params) (b : Bool) (n : Nat) (r : Reader) (go : Nat → Reader → ReadEnd) : ReadEnd :=
  match decStep p b r.dec with
  | .quiet d => go n { r with dec := d }
  | .emit v d => go (n + 1) { r with dec := d, out := writeSlot n v r.out }
  | .raised c d => .faulted c n { r with dec := d }

/-- The loop of DEC.READ (R89): the capacity is tested before a bit is taken. `fuel` bounds the bit steps;
`readFuel` is enough of it. -/
def readLoop (p : Params) (fuel cap n : Nat) (r : Reader) : ReadEnd :=
  match fuel with
  | 0 => .returned n r.dec.eos r
  | fuel + 1 =>
    if n < cap then
      match brNextBit p r with
      | .endOfStream r1 => .returned n true r1
      | .raised c r1 => .faulted c n r1
      | .blocked r1 => .blocked n r1
      | .bit b r1 => feedBit p b n r1 (readLoop p fuel cap)
    else .returned n r.dec.eos r

/-- How many bits the reader can still deliver, and one more for the discovery of exhaustion (R134). -/
def readFuel (r : Reader) : Nat := r.dec.left + 8 * r.source.content.length + 1

/-- Bits that have left the reader go through the FSM in order, emitted values to the slots from `n` on:
the loop of DEC.READ without its reader and its capacity. -/
def feedBits (p : Params) (bits : BitString) (n : Nat) (r : Reader) : ReadEnd :=
  match bits with
  | [] => .returned n r.dec.eos r
  | b :: rest => feedBit p b n r (feedBits p rest)

/-- The unit is in a state that no rule produces (U11). -/
def Dec.illegal (d : Dec) : Bool := decide (8 < d.left ∨ (d.st = .shiftingBits ∧ d.rem = 0))

/-- Ends an operation of unit DEC begun in `s`: the outcome and the count are reported (R112, R113). -/
def finishDec (s : State) (x : ReadEnd) : Host.Outcome State Fault Refusal :=
  match x with
  | .returned n eos r => .next ((s.withReader r).withDecResult (.read n eos))
  | .faulted c n r => .next ((s.withReader r).withDecResult (.faulted c n))
  | .blocked _ r =>
    .next { s.withReader r with decPort := { s.decPort with busy := true, result := .waiting } }

end Sys2Proof.Machine
end

