-- ==== Sys2Proof/Machine/Codeword.lean ====
section
/-! DEFINITION. The codeword classes CW.K0 to CW.K30 (spec/30_encoding.md R50, R51, R53) as instructions of
unit DEC: what a codeword makes the decoder do once its bits have left the reader (spec/43_decoder_fsm.md
R85 to R88), inside a DEC.READ with room for what they complete (R89). The reader's own part, taking those
bits from the source, is BR.NEXTBIT and stands in DEC.READ (log entry 2). -/
namespace Sys2Proof.Machine

/-- A codeword's bits go through DEC.STEP in order, as in DEC.READ (R89): a faulted unit refuses; after
exhaustion the reader delivers no bit, so nothing reaches the FSM (R84, R91). -/
def execCodeword (bits : BitString) (s : State) : Host.Outcome State Fault Refusal :=
  if s.dec.fault then .next (decRefuse .decFaulted s)
  else if s.dec.illegal then .fault .decIllegalState
  else if s.dec.eos then finishDec s (.returned 0 true s.reader)
  else finishDec s (feedBits s.params bits 0 s.reader)

/-- `CW.K0`: the single bit 1 (R51). -/
def execCwK0 (s : State) : Host.Outcome State Fault Refusal := execCodeword (codewordBits 0 0 false) s

/-- `CW.K1`: 4 bits (R53). -/
def execCwK1 (m : BitVec 1) (neg : Bool) (s : State) : Host.Outcome State Fault Refusal :=
  execCodeword (codewordBits 1 m.toNat neg) s

/-- `CW.K2`: 6 bits (R53). -/
def execCwK2 (m : BitVec 2) (neg : Bool) (s : State) : Host.Outcome State Fault Refusal :=
  execCodeword (codewordBits 2 m.toNat neg) s

/-- `CW.K3`: 8 bits (R53). -/
def execCwK3 (m : BitVec 3) (neg : Bool) (s : State) : Host.Outcome State Fault Refusal :=
  execCodeword (codewordBits 3 m.toNat neg) s

/-- `CW.K4`: 10 bits (R53). -/
def execCwK4 (m : BitVec 4) (neg : Bool) (s : State) : Host.Outcome State Fault Refusal :=
  execCodeword (codewordBits 4 m.toNat neg) s

/-- `CW.K5`: 12 bits (R53). -/
def execCwK5 (m : BitVec 5) (neg : Bool) (s : State) : Host.Outcome State Fault Refusal :=
  execCodeword (codewordBits 5 m.toNat neg) s

/-- `CW.K6`: 14 bits (R53). -/
def execCwK6 (m : BitVec 6) (neg : Bool) (s : State) : Host.Outcome State Fault Refusal :=
  execCodeword (codewordBits 6 m.toNat neg) s

/-- `CW.K7`: 16 bits (R53). -/
def execCwK7 (m : BitVec 7) (neg : Bool) (s : State) : Host.Outcome State Fault Refusal :=
  execCodeword (codewordBits 7 m.toNat neg) s

/-- `CW.K8`: 18 bits (R53). -/
def execCwK8 (m : BitVec 8) (neg : Bool) (s : State) : Host.Outcome State Fault Refusal :=
  execCodeword (codewordBits 8 m.toNat neg) s

/-- `CW.K9`: 20 bits (R53). -/
def execCwK9 (m : BitVec 9) (neg : Bool) (s : State) : Host.Outcome State Fault Refusal :=
  execCodeword (codewordBits 9 m.toNat neg) s

/-- `CW.K10`: 22 bits (R53). -/
def execCwK10 (m : BitVec 10) (neg : Bool) (s : State) : Host.Outcome State Fault Refusal :=
  execCodeword (codewordBits 10 m.toNat neg) s

/-- `CW.K11`: 24 bits (R53). -/
def execCwK11 (m : BitVec 11) (neg : Bool) (s : State) : Host.Outcome State Fault Refusal :=
  execCodeword (codewordBits 11 m.toNat neg) s

/-- `CW.K12`: 26 bits (R53). -/
def execCwK12 (m : BitVec 12) (neg : Bool) (s : State) : Host.Outcome State Fault Refusal :=
  execCodeword (codewordBits 12 m.toNat neg) s

/-- `CW.K13`: 28 bits (R53). -/
def execCwK13 (m : BitVec 13) (neg : Bool) (s : State) : Host.Outcome State Fault Refusal :=
  execCodeword (codewordBits 13 m.toNat neg) s

/-- `CW.K14`: 30 bits (R53). -/
def execCwK14 (m : BitVec 14) (neg : Bool) (s : State) : Host.Outcome State Fault Refusal :=
  execCodeword (codewordBits 14 m.toNat neg) s

/-- `CW.K15`: 32 bits (R53). -/
def execCwK15 (m : BitVec 15) (neg : Bool) (s : State) : Host.Outcome State Fault Refusal :=
  execCodeword (codewordBits 15 m.toNat neg) s

/-- `CW.K16`: 34 bits (R53). -/
def execCwK16 (m : BitVec 16) (neg : Bool) (s : State) : Host.Outcome State Fault Refusal :=
  execCodeword (codewordBits 16 m.toNat neg) s

/-- `CW.K17`: 36 bits (R53). -/
def execCwK17 (m : BitVec 17) (neg : Bool) (s : State) : Host.Outcome State Fault Refusal :=
  execCodeword (codewordBits 17 m.toNat neg) s

/-- `CW.K18`: 38 bits (R53). -/
def execCwK18 (m : BitVec 18) (neg : Bool) (s : State) : Host.Outcome State Fault Refusal :=
  execCodeword (codewordBits 18 m.toNat neg) s

/-- `CW.K19`: 40 bits (R53). -/
def execCwK19 (m : BitVec 19) (neg : Bool) (s : State) : Host.Outcome State Fault Refusal :=
  execCodeword (codewordBits 19 m.toNat neg) s

/-- `CW.K20`: 42 bits (R53). -/
def execCwK20 (m : BitVec 20) (neg : Bool) (s : State) : Host.Outcome State Fault Refusal :=
  execCodeword (codewordBits 20 m.toNat neg) s

/-- `CW.K21`: 44 bits (R53). -/
def execCwK21 (m : BitVec 21) (neg : Bool) (s : State) : Host.Outcome State Fault Refusal :=
  execCodeword (codewordBits 21 m.toNat neg) s

/-- `CW.K22`: 46 bits (R53). -/
def execCwK22 (m : BitVec 22) (neg : Bool) (s : State) : Host.Outcome State Fault Refusal :=
  execCodeword (codewordBits 22 m.toNat neg) s

/-- `CW.K23`: 48 bits (R53). -/
def execCwK23 (m : BitVec 23) (neg : Bool) (s : State) : Host.Outcome State Fault Refusal :=
  execCodeword (codewordBits 23 m.toNat neg) s

/-- `CW.K24`: 50 bits (R53). -/
def execCwK24 (m : BitVec 24) (neg : Bool) (s : State) : Host.Outcome State Fault Refusal :=
  execCodeword (codewordBits 24 m.toNat neg) s

/-- `CW.K25`: 52 bits (R53). -/
def execCwK25 (m : BitVec 25) (neg : Bool) (s : State) : Host.Outcome State Fault Refusal :=
  execCodeword (codewordBits 25 m.toNat neg) s

/-- `CW.K26`: 54 bits (R53). -/
def execCwK26 (m : BitVec 26) (neg : Bool) (s : State) : Host.Outcome State Fault Refusal :=
  execCodeword (codewordBits 26 m.toNat neg) s

/-- `CW.K27`: 56 bits (R53). -/
def execCwK27 (m : BitVec 27) (neg : Bool) (s : State) : Host.Outcome State Fault Refusal :=
  execCodeword (codewordBits 27 m.toNat neg) s

/-- `CW.K28`: 58 bits (R53). -/
def execCwK28 (m : BitVec 28) (neg : Bool) (s : State) : Host.Outcome State Fault Refusal :=
  execCodeword (codewordBits 28 m.toNat neg) s

/-- `CW.K29`: 60 bits (R53). -/
def execCwK29 (m : BitVec 29) (neg : Bool) (s : State) : Host.Outcome State Fault Refusal :=
  execCodeword (codewordBits 29 m.toNat neg) s

/-- `CW.K30`: 62 bits (R53). -/
def execCwK30 (m : BitVec 30) (neg : Bool) (s : State) : Host.Outcome State Fault Refusal :=
  execCodeword (codewordBits 30 m.toNat neg) s

end Sys2Proof.Machine
end

