-- ==== Sys2Proof/Machine/Decoder.lean ====
section
/-! DEFINITION. The host commands of unit DEC: DEC.NOP (spec/30_encoding.md R63), DEC.READ
(spec/43_decoder_fsm.md R89), DEC.RST (spec/70_reset_and_hazards.md R124). -/
namespace Sys2Proof.Machine

/-- `DEC.NOP`: reads nothing, writes nothing (R63). -/
def execDecNop (s : State) : Host.Outcome State Fault Refusal := .next s

/-- `DEC.READ cap` (R89). -/
def execDecRead (cap : Nat) (s : State) : Host.Outcome State Fault Refusal :=
  if s.dec.fault then .next (decRefuse .decFaulted s)
  else if s.dec.illegal then .fault .decIllegalState
  else finishDec s (readLoop s.params (readFuel s.reader) cap 0 s.reader)

/-- `DEC.RST` (R124): the source content and the output buffer stay as they are (R28); the list of
SourceRead answers counts from here (R83). -/
def execDecRst (s : State) : Host.Outcome State Fault Refusal :=
  .next
    { s with
      dec := Dec.reset
      source := { s.source with trace := [] }
      decPort := { s.decPort with result := .returned, marked := none } }

end Sys2Proof.Machine
end

