-- ==== Sys2Proof/Machine/Encoder.lean ====
section
/-! DEFINITION. The host commands of unit ENC: ENC.NOP (spec/30_encoding.md R63), ENC.PUT and ENC.CLOSE
(spec/40_codeword_encoder.md R68, R70), ENC.RST (spec/70_reset_and_hazards.md R123). -/
namespace Sys2Proof.Machine

/-- `ENC.NOP`: reads nothing, writes nothing (R63). -/
def execEncNop (s : State) : Host.Outcome State Fault Refusal := .next s

/-- The appends of ENC.PUT for an item in range (R68). -/
def putBits (p : Params) (item : Int) (w : Writer) : BwResult :=
  if item = 0 then bwAppend p 1 1 w
  else
    (bwAppend p 0 (nbits item) w).andThen fun w1 =>
      (bwAppend p 1 1 w1).andThen fun w2 =>
        (bwAppend p (biased item) (nbits item) w2).andThen fun w3 =>
          bwAppend p (signBit item).toNat 1 w3

/-- `ENC.PUT item` (R68); the tests stand in the order of spec/60_exceptions.md R110. -/
def execEncPut (item : Int) (s : State) : Host.Outcome State Fault Refusal :=
  if s.enc.fault then .next (encRefuse .encFaulted s)
  else if s.enc.closed then .next (encRefuse .encClosed s)
  else if ¬ InRange s.params item then .next (encRefuse .encRange s)
  else if s.enc.illegal then .fault .encIllegalState
  else finishEnc s (putBits s.params item s.writer)

/-- BW.CLOSE and then `enc.closed <- 1` (R70). -/
def closeStream (p : Params) (w : Writer) : BwResult :=
  (bwClose p w).andThen fun w1 => .ok { w1 with enc := { w1.enc with closed := true } }

/-- `ENC.CLOSE` (R70). -/
def execEncClose (s : State) : Host.Outcome State Fault Refusal :=
  if s.enc.fault then .next (encRefuse .encFaulted s)
  else if s.enc.closed then .next (encRefuse .encClosed s)
  else if s.enc.illegal then .fault .encIllegalState
  else finishEnc s (closeStream s.params s.writer)

/-- `ENC.RST` (R123): the unit is as after power-on; what the sink has taken stays where it went, and the
sink trace, as the spec counts it, restarts empty. -/
def execEncRst (s : State) : Host.Outcome State Fault Refusal :=
  .next
    { s with
      enc := Enc.reset
      sink := { s.sink with trace := [], past := s.sink.past ++ s.sink.trace }
      encPort := { s.encPort with result := .returned, marked := none } }

end Sys2Proof.Machine
end

