-- ==== Sys2Proof/Machine/Dispatch.lean ====
section
/-! DEFINITION. exec: one arm per constructor of Instr, each one call of that instruction's meaning. -/
namespace Sys2Proof.Machine

def exec (i : Instr) (s : State) : Host.Outcome State Fault Refusal :=
  match i with
  | .encNop => Sys2Proof.Machine.execEncNop s
  | .encPut item => Sys2Proof.Machine.execEncPut item s
  | .encClose => Sys2Proof.Machine.execEncClose s
  | .encRst => Sys2Proof.Machine.execEncRst s
  | .decNop => Sys2Proof.Machine.execDecNop s
  | .decRead cap => Sys2Proof.Machine.execDecRead cap s
  | .decRst => Sys2Proof.Machine.execDecRst s
  | .cwK0 => Sys2Proof.Machine.execCwK0 s
  | .cwK1 m neg => Sys2Proof.Machine.execCwK1 m neg s
  | .cwK2 m neg => Sys2Proof.Machine.execCwK2 m neg s
  | .cwK3 m neg => Sys2Proof.Machine.execCwK3 m neg s
  | .cwK4 m neg => Sys2Proof.Machine.execCwK4 m neg s
  | .cwK5 m neg => Sys2Proof.Machine.execCwK5 m neg s
  | .cwK6 m neg => Sys2Proof.Machine.execCwK6 m neg s
  | .cwK7 m neg => Sys2Proof.Machine.execCwK7 m neg s
  | .cwK8 m neg => Sys2Proof.Machine.execCwK8 m neg s
  | .cwK9 m neg => Sys2Proof.Machine.execCwK9 m neg s
  | .cwK10 m neg => Sys2Proof.Machine.execCwK10 m neg s
  | .cwK11 m neg => Sys2Proof.Machine.execCwK11 m neg s
  | .cwK12 m neg => Sys2Proof.Machine.execCwK12 m neg s
  | .cwK13 m neg => Sys2Proof.Machine.execCwK13 m neg s
  | .cwK14 m neg => Sys2Proof.Machine.execCwK14 m neg s
  | .cwK15 m neg => Sys2Proof.Machine.execCwK15 m neg s
  | .cwK16 m neg => Sys2Proof.Machine.execCwK16 m neg s
  | .cwK17 m neg => Sys2Proof.Machine.execCwK17 m neg s
  | .cwK18 m neg => Sys2Proof.Machine.execCwK18 m neg s
  | .cwK19 m neg => Sys2Proof.Machine.execCwK19 m neg s
  | .cwK20 m neg => Sys2Proof.Machine.execCwK20 m neg s
  | .cwK21 m neg => Sys2Proof.Machine.execCwK21 m neg s
  | .cwK22 m neg => Sys2Proof.Machine.execCwK22 m neg s
  | .cwK23 m neg => Sys2Proof.Machine.execCwK23 m neg s
  | .cwK24 m neg => Sys2Proof.Machine.execCwK24 m neg s
  | .cwK25 m neg => Sys2Proof.Machine.execCwK25 m neg s
  | .cwK26 m neg => Sys2Proof.Machine.execCwK26 m neg s
  | .cwK27 m neg => Sys2Proof.Machine.execCwK27 m neg s
  | .cwK28 m neg => Sys2Proof.Machine.execCwK28 m neg s
  | .cwK29 m neg => Sys2Proof.Machine.execCwK29 m neg s
  | .cwK30 m neg => Sys2Proof.Machine.execCwK30 m neg s

end Sys2Proof.Machine
end

