-- ==== Sys2Proof/WellFormed.lean ====
section
/-! DEFINITION. What makes an instruction well-formed: each operand fits the port or the field that
carries it (spec/00_scope.md R8, spec/30_encoding.md R53, R63). The magnitude field of class k is k bits by
its type. -/
namespace Sys2Proof

/-- Every operand fits its port, for the parameters `p`. -/
abbrev Instr.FitsPorts (p : Params) : Instr → Prop
  | .encPut item => FitsValue p item
  | .decRead cap => cap < 2 ^ p.CAPW
  | _ => True

/-- The same as a check that evaluates, for this hardware's parameters. -/
def Instr.wellFormed (i : Instr) : Bool :=
  match i with
  | .encPut item => decide (FitsValue Params.default item)
  | .decRead cap => decide (cap < 2 ^ Params.default.CAPW)
  | _ => true

end Sys2Proof
end

