-- ==== Sys2Proof/Decode.lean ====
section
/-! DEFINITION. Decoding: the two command ports (spec/30_encoding.md R63) and the codewords of the wire
(R50, R57), total, with every rejection named; and the encoder written from the same rules; and the rows of
the opcode table as mask and match (R66). -/
namespace Sys2Proof

/-- Why nothing was decoded. -/
inductive DecodeError where
  /-- The reserved command code `dec_cmd = 10` (R63). -/
  | reservedCmd
  /-- The bits end before the codeword does (R60 (b)). -/
  | truncated
  /-- A prefix longer than NBITS_MAX = 30 before a separator: no row of the table (R60 (c)). -/
  | overrange
  deriving DecidableEq, Repr

/-- The command on the ENC port: every two-bit code is one (R63). -/
def decodeEncCmd (p : Params) (code : BitVec 2) (item : Nat) : Instr :=
  if code = 0 then .encNop
  else if code = 1 then .encPut (portItem p item)
  else if code = 2 then .encClose
  else .encRst

/-- The command on the DEC port (R63). -/
def decodeDecCmd (p : Params) (code : BitVec 2) (cap : Nat) : Except DecodeError Instr :=
  if code = 0 then .ok .decNop
  else if code = 1 then .ok (.decRead (portCap p cap))
  else if code = 2 then .error .reservedCmd
  else .ok .decRst

/-- The row of class `k` with its fields (R53). -/
def codewordInstr (k m : Nat) (neg : Bool) : Option Instr :=
  match k with
  | 0 => some .cwK0
  | 1 => some (.cwK1 (BitVec.ofNat 1 m) neg)
  | 2 => some (.cwK2 (BitVec.ofNat 2 m) neg)
  | 3 => some (.cwK3 (BitVec.ofNat 3 m) neg)
  | 4 => some (.cwK4 (BitVec.ofNat 4 m) neg)
  | 5 => some (.cwK5 (BitVec.ofNat 5 m) neg)
  | 6 => some (.cwK6 (BitVec.ofNat 6 m) neg)
  | 7 => some (.cwK7 (BitVec.ofNat 7 m) neg)
  | 8 => some (.cwK8 (BitVec.ofNat 8 m) neg)
  | 9 => some (.cwK9 (BitVec.ofNat 9 m) neg)
  | 10 => some (.cwK10 (BitVec.ofNat 10 m) neg)
  | 11 => some (.cwK11 (BitVec.ofNat 11 m) neg)
  | 12 => some (.cwK12 (BitVec.ofNat 12 m) neg)
  | 13 => some (.cwK13 (BitVec.ofNat 13 m) neg)
  | 14 => some (.cwK14 (BitVec.ofNat 14 m) neg)
  | 15 => some (.cwK15 (BitVec.ofNat 15 m) neg)
  | 16 => some (.cwK16 (BitVec.ofNat 16 m) neg)
  | 17 => some (.cwK17 (BitVec.ofNat 17 m) neg)
  | 18 => some (.cwK18 (BitVec.ofNat 18 m) neg)
  | 19 => some (.cwK19 (BitVec.ofNat 19 m) neg)
  | 20 => some (.cwK20 (BitVec.ofNat 20 m) neg)
  | 21 => some (.cwK21 (BitVec.ofNat 21 m) neg)
  | 22 => some (.cwK22 (BitVec.ofNat 22 m) neg)
  | 23 => some (.cwK23 (BitVec.ofNat 23 m) neg)
  | 24 => some (.cwK24 (BitVec.ofNat 24 m) neg)
  | 25 => some (.cwK25 (BitVec.ofNat 25 m) neg)
  | 26 => some (.cwK26 (BitVec.ofNat 26 m) neg)
  | 27 => some (.cwK27 (BitVec.ofNat 27 m) neg)
  | 28 => some (.cwK28 (BitVec.ofNat 28 m) neg)
  | 29 => some (.cwK29 (BitVec.ofNat 29 m) neg)
  | 30 => some (.cwK30 (BitVec.ofNat 30 m) neg)
  | _ => none

/-- Counts the zeros before the first 1 and gives what follows it (R57). -/
def splitZeros : BitString → Option (Nat × BitString)
  | [] => none
  | true :: rest => some (0, rest)
  | false :: rest => (splitZeros rest).map fun r => (r.1 + 1, r.2)

/-- One codeword off the front of a bit string, with the bits after it (R57). -/
def decodeCodeword (bits : BitString) : Except DecodeError (Instr × BitString) :=
  match splitZeros bits with
  | none => .error .truncated
  | some (k, rest) =>
    if k = 0 then .ok (.cwK0, rest)
    else
      match codewordInstr k (bitsNat (rest.take k)) ((rest.drop k).headD false) with
      | none => .error .overrange
      | some i => if rest.length < k + 1 then .error .truncated else .ok (i, rest.drop (k + 1))

/-- Decodes what stands on a wire: the instruction, and the bits after it on the source stream. -/
def decode (p : Params) (w : Wire) : Except DecodeError (Instr × BitString) :=
  match w with
  | .encCmd code item => .ok (decodeEncCmd p code item, [])
  | .decCmd code cap => (decodeDecCmd p code cap).map fun i => (i, [])
  | .codeword bits => decodeCodeword bits

/-- The codeword at the front of a byte sequence, bit 7 of the first byte first (R33). -/
def decodeBytes (bytes : List Byte) : Except DecodeError (Instr × BitString) :=
  decodeCodeword (bytesBits bytes)

/-- The class, magnitude field and sign of a codeword row; none for a host command. -/
def codewordFields (i : Instr) : Option (Nat × Nat × Bool) :=
  match i with
  | .encNop | .encPut _ | .encClose | .encRst | .decNop | .decRead _ | .decRst => none
  | .cwK0 => some (0, 0, false)
  | .cwK1 m neg => some (1, m.toNat, neg)
  | .cwK2 m neg => some (2, m.toNat, neg)
  | .cwK3 m neg => some (3, m.toNat, neg)
  | .cwK4 m neg => some (4, m.toNat, neg)
  | .cwK5 m neg => some (5, m.toNat, neg)
  | .cwK6 m neg => some (6, m.toNat, neg)
  | .cwK7 m neg => some (7, m.toNat, neg)
  | .cwK8 m neg => some (8, m.toNat, neg)
  | .cwK9 m neg => some (9, m.toNat, neg)
  | .cwK10 m neg => some (10, m.toNat, neg)
  | .cwK11 m neg => some (11, m.toNat, neg)
  | .cwK12 m neg => some (12, m.toNat, neg)
  | .cwK13 m neg => some (13, m.toNat, neg)
  | .cwK14 m neg => some (14, m.toNat, neg)
  | .cwK15 m neg => some (15, m.toNat, neg)
  | .cwK16 m neg => some (16, m.toNat, neg)
  | .cwK17 m neg => some (17, m.toNat, neg)
  | .cwK18 m neg => some (18, m.toNat, neg)
  | .cwK19 m neg => some (19, m.toNat, neg)
  | .cwK20 m neg => some (20, m.toNat, neg)
  | .cwK21 m neg => some (21, m.toNat, neg)
  | .cwK22 m neg => some (22, m.toNat, neg)
  | .cwK23 m neg => some (23, m.toNat, neg)
  | .cwK24 m neg => some (24, m.toNat, neg)
  | .cwK25 m neg => some (25, m.toNat, neg)
  | .cwK26 m neg => some (26, m.toNat, neg)
  | .cwK27 m neg => some (27, m.toNat, neg)
  | .cwK28 m neg => some (28, m.toNat, neg)
  | .cwK29 m neg => some (29, m.toNat, neg)
  | .cwK30 m neg => some (30, m.toNat, neg)

/-- What the host or the source puts on the wire for an instruction (R50, R63). -/
def encode (p : Params) (i : Instr) : Wire :=
  match i with
  | .encNop => .encCmd 0 0
  | .encPut item => .encCmd 1 (itemPort p item)
  | .encClose => .encCmd 2 0
  | .encRst => .encCmd 3 0
  | .decNop => .decCmd 0 0
  | .decRead cap => .decCmd 1 (portCap p cap)
  | .decRst => .decCmd 3 0
  | i => .codeword (((codewordFields i).map fun f => codewordBits f.1 f.2.1 f.2.2).getD [])

/-- The three formats of spec/opcode_table.json. -/
inductive Format where
  | encCmd
  | decCmd
  | codeword
  deriving DecidableEq, Repr

/-- One row of the opcode table as it selects words: `match` and `mask` on the first `length` bits, read
as one number with the first bit most significant (R66). -/
structure Row where
  format : Format
  length : Nat
  maskBits : Nat
  matchBits : Nat
  deriving DecidableEq, Repr

/-- The row of codeword class `k` (R66). -/
def codewordRow (k : Nat) : Row :=
  if k = 0 then { format := .codeword, length := 1, maskBits := 1, matchBits := 1 }
  else
    { format := .codeword, length := 2 * k + 2,
      maskBits := (2 ^ (k + 1) - 1) <<< (k + 1), matchBits := 1 <<< (k + 1) }

/-- The row of an instruction (R63, R66). -/
def Instr.row (i : Instr) : Row :=
  match i with
  | .encNop => { format := .encCmd, length := 2, maskBits := 3, matchBits := 0 }
  | .encPut _ => { format := .encCmd, length := 2, maskBits := 3, matchBits := 1 }
  | .encClose => { format := .encCmd, length := 2, maskBits := 3, matchBits := 2 }
  | .encRst => { format := .encCmd, length := 2, maskBits := 3, matchBits := 3 }
  | .decNop => { format := .decCmd, length := 2, maskBits := 3, matchBits := 0 }
  | .decRead _ => { format := .decCmd, length := 2, maskBits := 3, matchBits := 1 }
  | .decRst => { format := .decCmd, length := 2, maskBits := 3, matchBits := 3 }
  | i => codewordRow (((codewordFields i).map fun f => f.1).getD 0)

/-- The number a row's mask is laid on: the command code, or the codeword read first bit most
significant (R66). -/
def Wire.number (w : Wire) : Nat :=
  match w with
  | .encCmd code _ => code.toNat
  | .decCmd code _ => code.toNat
  | .codeword bits => bitsNat bits

/-- How many bits a row's mask is laid on. -/
def Wire.width (w : Wire) : Nat :=
  match w with
  | .encCmd _ _ => 2
  | .decCmd _ _ => 2
  | .codeword bits => bits.length

/-- The wire that a number of the opcode table stands for. The table's rows of the three formats share
the numbers 0 to 3; a number below 4 is read as a command on the ENC port, with a zero operand, and CW.K0
only when one bit is asked for (DESIGN CHOICE, log entry 3). From 4 on the number is a codeword, and the
place of its leading 1 gives its class (R54, R66). -/
def tableWire (nbits w : Nat) : Option Wire :=
  if nbits = 1 ∧ w = 1 then some (.codeword [true])
  else if w < 4 then some (.encCmd (BitVec.ofNat 2 w) 0)
  else if 2 * w.log2 ≤ nbits then some (.codeword (numBits (2 * w.log2) w))
  else none

/-- What the decoder reads from the opcode table's number `w` of a row of `nbits` bits. -/
def decodeTableWord (nbits w : Nat) : Option Instr :=
  match tableWire nbits w with
  | none => none
  | some wire =>
    match decode Params.default wire with
    | .ok r => some r.1
    | .error _ => none

end Sys2Proof
end

