-- ==== Sys2Proof/Machine/Fetch.lean ====
section
/-! DEFINITION. How the next operation reaches a unit. The block fetches no instruction (spec/20_memory.md
R45): the host issues its lines one at a time (spec/30_encoding.md R64), a line reaches a unit only when the
unit's previous operation has returned (spec/70_reset_and_hazards.md R129), and the environment may set the
source content between two operations. -/
namespace Sys2Proof.Machine

/-- What the next line of the host's trace asks for. -/
inductive Fetched where
  /-- No line is left: the units are idle and keep all their state (spec/60_exceptions.md R121). -/
  | idle
  /-- The line is over without an instruction: the environment has acted, or the command was refused at
  the port. -/
  | passed (s : State)
  /-- An instruction to run. -/
  | instr (i : Instr) (s : State)
  deriving DecidableEq, Repr

/-- Takes the next line of the host's trace. -/
def fetch (s : State) : Fetched :=
  match s.pending with
  | [] => .idle
  | .src bytes :: rest => .passed { s with pending := rest, source := { s.source with content := bytes } }
  | .encCmd code item :: rest =>
    if s.encPort.busy then .passed (encRefuseBusy { s with pending := rest })
    else .instr (decodeEncCmd s.params code item) { s with pending := rest }
  | .decCmd code cap :: rest =>
    if s.decPort.busy then .passed (decRefuseBusy { s with pending := rest })
    else
      match decodeDecCmd s.params code cap with
      | .ok i => .instr i { s with pending := rest }
      | .error _ => .passed (decRefuse .reservedCmd { s with pending := rest })

/-- Bytes that begin with a bit string, zeros after it to the end of the last byte (R58). -/
def codewordBytes (bits : BitString) : List Byte := packPadded bits

/-- Puts a wire where the next step finds it: a command at the head of the host's trace, to a unit that can
take it; a codeword at the head of the source stream of a DEC unit that stands between two codewords with no
byte loaded, and a DEC.READ 1 at the head of the host's trace. -/
def placeWire (w : Wire) (s : State) : State :=
  match w with
  | .encCmd code item =>
    { s with pending := .encCmd code item :: s.pending, encPort := { s.encPort with busy := false } }
  | .decCmd code cap =>
    { s with pending := .decCmd code cap :: s.pending, decPort := { s.decPort with busy := false } }
  | .codeword bits =>
    { s with
      pending := .decCmd 1 1 :: s.pending
      decPort := { s.decPort with busy := false }
      dec := { s.dec with st := .countingZeros, zc := 0, left := 0, eos := false, fault := false, cause := .none }
      source := { s.source with content := codewordBytes bits, plan := [] } }

/-- Places the opcode table's number `w` of a row of `nbits` bits; a number that no wire carries changes
nothing. -/
def placeTableWord (nbits w : Nat) (s : State) : State :=
  match tableWire nbits w with
  | none => s
  | some wire => placeWire wire s

end Sys2Proof.Machine
end

