-- ==== Sys2Proof/Machine/Step.lean ====
section
/-! DEFINITION. One step of the machine: the next line of the host's trace, to its completion
(spec/00_scope.md R7). -/
namespace Sys2Proof.Machine

/-- One step: the next line of the host's trace runs to completion; with no line left nothing happens. -/
def step (s : State) : Host.Outcome State Fault Refusal :=
  match fetch s with
  | .idle => .next s
  | .passed s1 => .next s1
  | .instr i s1 => exec i s1

/-- The state in which the next step runs the opcode table's number `w` of a row of `nbits` bits. -/
def State.withFetchWord (s : State) (nbits w : Nat) : State := placeTableWord nbits w s

end Sys2Proof.Machine
end

