-- ==== Sys2Proof/Machine/Flags.lean ====
section
/-! DEFINITION. The flags and the two read-only status registers (spec/10_state.md R22, R23, R24), and the
numbers of the outcomes (spec/60_exceptions.md R103) and of the FSM tags (R18). -/
namespace Sys2Proof.Machine

/-- The code an outcome has in a CAUSE field (R103). -/
def OutcomeCode.code (c : OutcomeCode) : Nat :=
  match c with
  | .none => 0
  | .endOfStream => 1
  | .ioFailSink => 2
  | .ioFailSource => 3
  | .decOverrange => 4

/-- The number of an FSM tag in the register `dec.st` (R18). -/
def FsmTag.code (t : FsmTag) : Nat :=
  match t with
  | .countingZeros => 0
  | .shiftingBits => 1
  | .readingSign => 2

/-- A status byte: bit 0, bit 1, CAUSE in bits 4:2, and bits 7:5 zero. -/
def statusByte (bit0 bit1 : Bool) (cause : OutcomeCode) : BitVec 8 :=
  BitVec.ofNat 8 (bit0.toNat + 2 * bit1.toNat + 4 * cause.code)

/-- `ENC_STATUS`: CLOSED, FAULT, CAUSE (R22). -/
def encStatus (s : State) : BitVec 8 := statusByte s.enc.closed s.enc.fault s.enc.cause

/-- `DEC_STATUS`: EOS, FAULT, CAUSE (R23). -/
def decStatus (s : State) : BitVec 8 := statusByte s.dec.eos s.dec.fault s.dec.cause

end Sys2Proof.Machine
end

