-- ==== Sys2Proof/Machine/Fsm.lean ====
section
/-! DEFINITION. Two other forms of the decoder FSM that the spec gives beside the register form: the
canonical three-constructor form (spec/10_state.md R16, R18) and the hardware zero counter that saturates
(R18, R19). -/
namespace Sys2Proof.Machine

/-- The map of R18 from the register form to the canonical form. -/
def Dec.fsm (d : Dec) : FsmState :=
  match d.st with
  | .countingZeros => .countingZeros d.zc
  | .shiftingBits => .shiftingBits d.acc d.rem
  | .readingSign => .readingSign d.acc

/-- How a step of the canonical form ends. -/
inductive FsmResult where
  | quiet (f : FsmState)
  | emit (v : Int) (f : FsmState)
  | raised (code : OutcomeCode) (f : FsmState)
  deriving DecidableEq, Repr

/-- The transitions of spec/43_decoder_fsm.md R85 on the canonical form. -/
def fsmStep (p : Params) (b : Bool) (f : FsmState) : FsmResult :=
  match f with
  | .countingZeros zc =>
    match b with
    | false => .quiet (.countingZeros (zc + 1))
    | true =>
      if zc = 0 then .emit 0 (.countingZeros 0)
      else if zc ≤ p.nbitsMax then .quiet (.shiftingBits 1 zc)
      else .raised .decOverrange (.countingZeros zc)
  | .shiftingBits acc rem =>
    if 1 < rem then .quiet (.shiftingBits (2 * acc + b.toNat) (rem - 1))
    else .quiet (.readingSign (2 * acc + b.toNat - 1))
  | .readingSign mag => .emit (if b then -(mag : Int) else mag) (.countingZeros 0)

/-- Forgets the register form's fields that mean nothing in their state. -/
def StepResult.fsm (x : StepResult) : FsmResult :=
  match x with
  | .quiet d => .quiet d.fsm
  | .emit v d => .emit v d.fsm
  | .raised c d => .raised c d.fsm

/-- A zero counter that saturates at `NBITS_MAX + 1` (R19). -/
def Dec.saturate (p : Params) (d : Dec) : Dec := { d with zc := min d.zc (p.nbitsMax + 1) }

/-- A result with its zero counter saturated. -/
def StepResult.saturate (p : Params) (x : StepResult) : StepResult :=
  match x with
  | .quiet d => .quiet (d.saturate p)
  | .emit v d => .emit v (d.saturate p)
  | .raised c d => .raised c (d.saturate p)

/-- DEC.STEP of a hardware whose zero counter saturates (R86's comment, R19). -/
def decStepSaturating (p : Params) (b : Bool) (d : Dec) : StepResult := (decStep p b d).saturate p

end Sys2Proof.Machine
end

