-- ==== Sys2Proof/Machine/Ports.lean ====
section
/-! DEFINITION. The port binding as views of the state (spec/20_memory.md R47, R48): what each unit shows on
its output signals between two operations, and how the pins of a transport carry its beats and answers. No
clock and no handshake cycle is modelled (R7, R131). -/
namespace Sys2Proof.Machine

/-- The outputs of unit ENC that hold a level between operations, and how its last operation was reported. -/
structure EncPins where
  cmdReady : Bool
  refused : Bool
  closed : Bool
  fault : Bool
  cause : Nat
  deriving DecidableEq, Repr

/-- The outputs of unit DEC that hold a level between operations, and how its last operation was reported. -/
structure DecPins where
  cmdReady : Bool
  refused : Bool
  count : Nat
  eos : Bool
  fault : Bool
  cause : Nat
  deriving DecidableEq, Repr

/-- enc_refused of the last operation. -/
def EncResult.isRefused (x : EncResult) : Bool :=
  match x with
  | .refused _ => true
  | .idle | .returned | .faulted _ | .waiting => false

/-- dec_refused of the last operation. -/
def DecResult.isRefused (x : DecResult) : Bool :=
  match x with
  | .refused _ => true
  | .idle | .returned | .read _ _ | .faulted _ _ | .waiting => false

/-- dec_count of the last operation: the count of a DEC.READ, whether it returned or faulted (R89, R112), and 0
for a DEC.READ refused on a faulted unit (RefDecFaulted, R108). DESIGN CHOICE (log entry 12): it also shows 0 for
the refused reserved code (RefReservedCmd), for which R108 gives only dec_refused, and when no report is there to
go with it (no operation yet, after DEC.RST, while an operation waits), where R47 gives it no meaning. -/
def DecResult.count (x : DecResult) : Nat :=
  match x with
  | .read n _ => n
  | .faulted _ n => n
  | .idle | .returned | .refused _ | .waiting => 0

/-- The last operation is a DEC.READ that returned `eos = 1` (R89). -/
def DecResult.reportsEos (x : DecResult) : Bool :=
  match x with
  | .read _ eos => eos
  | .idle | .returned | .faulted _ _ | .refused _ | .waiting => false

/-- The output signals of unit ENC (R47). -/
def encPins (s : State) : EncPins :=
  { cmdReady := !s.encPort.busy, refused := s.encPort.result.isRefused, closed := s.enc.closed,
    fault := s.enc.fault, cause := s.enc.cause.code }

/-- The output signals of unit DEC (R47). -/
def decPins (s : State) : DecPins :=
  { cmdReady := !s.decPort.busy, refused := s.decPort.result.isRefused,
    count := s.decPort.result.count, eos := s.dec.eos, fault := s.dec.fault, cause := s.dec.cause.code }

/-- The sink beat of a trace entry: sink_flush, and sink_byte where it is not ignored (R48). -/
def SinkItem.beat (x : SinkItem) : Bool × Option Byte :=
  match x with
  | .byte b => (false, some b)
  | .flush => (true, none)

/-- The answer to a sink beat, from sink_err, which is tied to 0 without HAS_IO_ERR (R47). -/
def sinkAnswerOfPins (p : Params) (sinkErr : Bool) : SinkAnswer :=
  if p.hasIoErr && sinkErr then .fail else .ok

/-- The answer to a source request, from src_err, src_eos and src_byte in that priority (R48); src_err is
tied to 0 without HAS_IO_ERR (R47). -/
def sourceAnswerOfPins (p : Params) (srcErr srcEos : Bool) (srcByte : Byte) : SourceAnswer :=
  if p.hasIoErr && srcErr then .fail else if srcEos then .exhausted else .byte srcByte

end Sys2Proof.Machine
end

