-- ==== Sys2Proof/Machine/Pseudo.lean ====
section
/-! DEFINITION. The public operations as pseudo-operations on the block (spec/30_encoding.md R65): encode
(spec/40_codeword_encoder.md R71), decode (spec/43_decoder_fsm.md R92), and the delta wrapper of the host,
which is outside the block (spec/44_delta_wrapper.md R97 to R102). -/
namespace Sys2Proof.Machine

/-- Runs instructions one after another, each to completion, past the ports: no unit is asked whether it is
ready. The pseudo-operations go through `issueEnc` and `issueDec`. -/
def execAll (is : List Instr) (s : State) : Host.Outcome State Fault Refusal :=
  match is with
  | [] => .next s
  | i :: rest =>
    match exec i s with
    | .next t => execAll rest t
    | .fault f => .fault f
    | .refused r => .refused r

/-- How a pseudo-operation ends. -/
inductive Answer (α : Type) where
  | ok (a : α)
  /-- The first of its operations that did not return normally was refused (R108). -/
  | refused (r : RefReason)
  /-- The first of its operations that did not return normally raised a fault; `got` is what was complete
  before it (spec/60_exceptions.md R112, R113). -/
  | faulted (code : OutcomeCode) (got : α)
  /-- An operation of it waits for a transport call that is never answered, or the machine is stuck. -/
  | stopped
  deriving DecidableEq, Repr

/-- Applies a function to what an answer carries. -/
def Answer.map {α β : Type} (f : α → β) (x : Answer α) : Answer β :=
  match x with
  | .ok a => .ok (f a)
  | .refused r => .refused r
  | .faulted c a => .faulted c (f a)
  | .stopped => .stopped

/-- Goes on after a normal return, and ends where the first answer ended otherwise. -/
def Answer.andThen {α : Type} (x : Answer α) (f : α → Answer α) : Answer α :=
  match x with
  | .ok a => f a
  | .refused r => .refused r
  | .faulted c a => .faulted c a
  | .stopped => .stopped

/-! ### Issuing one operation -/

/-- What the host of unit ENC sees of an operation that it issued (R112), with the state after it. -/
def encReport (x : Host.Outcome State Fault Refusal) : Answer State :=
  match x with
  | .next t =>
    match t.encPort.result with
    | .returned => .ok t
    | .faulted c => .faulted c t
    | .refused r => .refused r
    | .idle | .waiting => .stopped
  | .fault _ => .stopped
  | .refused _ => .stopped

/-- The host issues one operation to unit ENC: a unit whose operation has not returned refuses it (R108,
R129). DESIGN CHOICE: the reset is refused as well, as at the port (log entries 9 and 15). -/
def issueEnc (i : Instr) (s : State) : Answer State :=
  if s.encPort.busy then .refused .busy else encReport (exec i s)

/-- What the host of unit DEC sees of an operation that it issued (R112, R113), with the state after it. -/
def decReport (x : Host.Outcome State Fault Refusal) : Answer State :=
  match x with
  | .next t =>
    match t.decPort.result with
    | .returned => .ok t
    | .read _ _ => .ok t
    | .faulted c _ => .faulted c t
    | .refused r => .refused r
    | .idle | .waiting => .stopped
  | .fault _ => .stopped
  | .refused _ => .stopped

/-- The host issues one operation to unit DEC: a unit whose operation has not returned refuses it (R108,
R129). DESIGN CHOICE: the reset is refused as well, as at the port (log entries 9 and 15). -/
def issueDec (i : Instr) (s : State) : Answer State :=
  if s.decPort.busy then .refused .busy else decReport (exec i s)

/-! ### encode -/

/-- The bytes of a sink trace, the marker `F` dropped (R65). -/
def sinkBytes (trace : List SinkItem) : List Byte :=
  match trace with
  | [] => []
  | .byte b :: rest => b :: sinkBytes rest
  | .flush :: rest => sinkBytes rest

/-- The operations of `encode(values)`: ENC.RST, a put for each value, ENC.CLOSE (R71). -/
def encodeOps (values : List Int) : List Instr :=
  .encRst :: (values.map .encPut ++ [.encClose])

/-- Issues operations to unit ENC one after another. DESIGN CHOICE: the first that is refused or raises a
fault ends the sequence, so that its own outcome is the answer, "surfaced immediately to the caller" (R105;
log entry 15). -/
def issueAllEnc (is : List Instr) (s : State) : Answer State :=
  match is with
  | [] => .ok s
  | i :: rest => (issueEnc i s).andThen (issueAllEnc rest)

/-- `encode(values)` on the units of `s`: the bytes of the sink trace (R71). With a fault come the bytes that
were written before it (R113; DESIGN CHOICE, log entry 15). -/
def encodeValues (values : List Int) (s : State) : Answer (List Byte) :=
  (issueAllEnc (encodeOps values) s).map fun t => sinkBytes t.sink.trace

/-! ### decode -/

/-- `SRC bytes` (R64). -/
def setSource (bytes : List Byte) (s : State) : State :=
  { s with source := { s.source with content := bytes } }

/-- The values and the count of the last DEC.READ: `out[0..count-1]` and `count` (R92). -/
def readBack (s : State) : List Int × Nat :=
  (s.out.take s.decPort.result.count, s.decPort.result.count)

/-- `SRC bytes` and DEC.RST, with which decode and DELTA.DEC begin (R92, R99). -/
def startDecoding (bytes : List Byte) (s : State) : Answer State :=
  issueDec .decRst (setSource bytes s)

/-- `decode(bytes, maxCount)` on the units of `s` (R92). A fault comes with the values that were complete
before it and their count (R89, R113). DESIGN CHOICE (log entry 15): decode passes both on to its caller; a unit
DEC whose operation has not returned refuses decode; and a maxCount of `2^CAPW` or more, which the port dec_cap
cannot carry, is the capacity as it stands, not reduced as `portCap` reduces what is on the port. -/
def decodeValues (bytes : List Byte) (maxCount : Nat) (s : State) : Answer (List Int × Nat) :=
  ((startDecoding bytes s).andThen (issueDec (.decRead maxCount))).map readBack

/-! ### The delta wrapper -/

/-- `delta[0] = seq[0] - start`, `delta[i] = seq[i] - seq[i-1]` (R98), in Int (R101). -/
def deltas (start : Int) (seq : List Int) : List Int :=
  match seq with
  | [] => []
  | x :: rest => (x - start) :: deltas x rest

/-- The running sums of R99, in Int (R101). -/
def runningSums (base : Int) (ds : List Int) : List Int :=
  match ds with
  | [] => []
  | d :: rest => (base + d) :: runningSums (base + d) rest

/-- `DELTA.ENC start, seq` (R98). -/
def deltaEncode (start : Int) (seq : List Int) (s : State) : Answer (List Byte) :=
  encodeValues (deltas start seq) s

/-- The DEC.READ calls of R99, `cap` values at most in each, until one reports exhaustion, with all the
values they gave after those in `got`; a fault comes with the values that were complete before it (R113; that
the wrapper passes them on is a DESIGN CHOICE, log entry 15). `fuel` bounds the calls: a call that does not
report exhaustion takes a bit. -/
def readAll (fuel cap : Nat) (s : State) (got : List Int) : Answer (List Int) :=
  match fuel with
  | 0 => .stopped
  | fuel + 1 =>
    match issueDec (.decRead cap) s with
    | .ok t =>
      if t.decPort.result.reportsEos then .ok (got ++ (readBack t).1)
      else readAll fuel cap t (got ++ (readBack t).1)
    | .faulted c t => .faulted c (got ++ (readBack t).1)
    | .refused r => .refused r
    | .stopped => .stopped

/-- Every running sum fits the `W`-bit signed range (R101). DESIGN CHOICE: the sums after each delta are
tested; `base` itself, which DELTA.DEC does not return, is not (log entry 15). -/
def sumsFit (p : Params) (base : Int) (ds : List Int) : Bool :=
  (runningSums base ds).all fun v => decide (FitsValue p v)

/-- The running sums of the deltas an answer carries, refused when one leaves the range (R101). DESIGN
CHOICE: with a fault come the sums of the deltas before it, and a sum out of range among these is reported
before the fault (log entry 15). -/
def sumAnswer (p : Params) (base : Int) (x : Answer (List Int)) : Answer (List Int) :=
  match x with
  | .ok ds => if sumsFit p base ds then .ok (runningSums base ds) else .refused .deltaRange
  | .faulted c ds =>
    if sumsFit p base ds then .faulted c (runningSums base ds) else .refused .deltaRange
  | .refused r => .refused r
  | .stopped => .stopped

/-- `DELTA.DEC base, bytes` with `cap >= 1` values asked for in a call (R99). DESIGN CHOICE: a unit DEC whose
operation has not returned refuses it, and a `cap` of `2^CAPW` or more is taken as it stands, both as in decode
(log entry 15). -/
def deltaDecode (base : Int) (bytes : List Byte) (cap : Nat) (s : State) : Answer (List Int) :=
  match startDecoding bytes s with
  | .ok t => sumAnswer s.params base (readAll (8 * bytes.length + 1) cap t [])
  | .faulted c _ => .faulted c []
  | .refused r => .refused r
  | .stopped => .stopped

end Sys2Proof.Machine
end

