-- ==== Sys2Proof/Safety.lean ====
section
/-! DEFINITION. The terms statements are made in: what an observer of a byte stream can rely on
(spec/41_bitwriter.md R80, spec/42_bitreader.md R83), the invariants of the two units (spec/10_state.md R14,
R19), transports that answer (spec/70_reset_and_hazards.md R134), and the end of a run (R136). -/
namespace Sys2Proof

/-- The unit whose port an instruction comes in on, or, for a codeword, whose source it stands on. -/
inductive UnitName where
  | enc
  | dec
  deriving DecidableEq, Repr

/-- The unit that runs an instruction (R62, R53). -/
def Instr.unit (i : Instr) : UnitName :=
  match i with
  | .encNop | .encPut _ | .encClose | .encRst => .enc
  | _ => .dec

end Sys2Proof

namespace Sys2Proof.Machine

/-- The bits appended since ENC.RST: those of the bytes in the sink trace, then the pending ones
(R80). -/
def Writer.bits (w : Writer) : BitString :=
  bytesBits (sinkBytes w.sink.trace) ++ (byteBits w.enc.acc).take w.enc.pos

/-- The unit stands between two micro-operations: a partly filled byte, zeros below what is filled
(R14). -/
def Writer.Open (w : Writer) : Prop :=
  w.enc.pos ≤ 7 ∧ low w.enc.acc.toNat (8 - w.enc.pos) = 0

/-- The bits the reader can still deliver: those left of the loaded byte, then those of the source
content (R82). -/
def Reader.bits (r : Reader) : BitString :=
  numBits r.dec.left r.dec.cur.toNat ++ bytesBits r.source.content

/-- The unit is between two codewords of an unfaulted stream that is not exhausted (R25). -/
def Dec.BetweenCodewords (d : Dec) : Prop :=
  d.st = .countingZeros ∧ d.zc = 0 ∧ d.left ≤ 8 ∧ d.eos = false ∧ d.fault = false

/-- Every call of the sink is answered `Ok` (R74). -/
def Sink.Reliable (p : Params) (k : Sink) : Prop :=
  ∀ a ∈ k.plan, a = .ok ∨ (a = .fail ∧ p.hasIoErr = false)

/-- Every call of the source is served (R81). -/
def Source.Reliable (p : Params) (k : Source) : Prop :=
  ∀ a ∈ k.plan, a = .serve ∨ (a = .fail ∧ p.hasIoErr = false)

/-- Every transport call is eventually answered: the fairness assumption of R134. -/
def Answered (s : State) : Prop :=
  (∀ a ∈ s.sink.plan, a ≠ .never) ∧ (∀ a ∈ s.source.plan, a ≠ .never)

/-- The invariant of unit ENC: the range of `enc.pos` (R13), and, in a unit that is neither faulted nor
waiting, the three clauses of R14; a faulted unit is not closed (R110); CAUSE goes with FAULT (R22). -/
def EncInv (e : Enc) (busy : Bool) : Prop :=
  e.pos ≤ 8 ∧
  (e.fault = false → busy = false →
    e.pos ≤ 7 ∧ low e.acc.toNat (8 - e.pos) = 0 ∧ (e.closed = true → e.pos = 0 ∧ e.acc = 0)) ∧
  (e.fault = true → e.closed = false) ∧
  (e.fault = false ↔ e.cause = .none) ∧
  (e.cause = .none ∨ e.cause = .ioFailSink)

/-- R19's clause for the FSM state the unit is in. -/
def FsmInv (p : Params) (d : Dec) : Prop :=
  match d.st with
  | .countingZeros => True
  | .shiftingBits =>
    1 ≤ d.rem ∧ d.rem ≤ d.zc ∧ d.zc ≤ p.nbitsMax ∧
    2 ^ (d.zc - d.rem) ≤ d.acc ∧ d.acc ≤ 2 ^ (d.zc - d.rem + 1) - 1
  | .readingSign =>
    d.rem = 0 ∧ 1 ≤ d.zc ∧ d.zc ≤ p.nbitsMax ∧ 2 ^ d.zc - 1 ≤ d.acc ∧ d.acc ≤ 2 ^ (d.zc + 1) - 2

/-- The invariant of unit DEC: at most 7 bits are buffered between operations and none after exhaustion
(R15, R91), CAUSE goes with FAULT (R23), and R19's clause for the FSM state. -/
def DecInv (p : Params) (d : Dec) : Prop :=
  d.left ≤ 7 ∧ (d.eos = true → d.left = 0) ∧ (d.fault = false ↔ d.cause = .none) ∧
  (d.cause = .none ∨ d.cause = .ioFailSource ∨ d.cause = .decOverrange) ∧ FsmInv p d

/-- The invariant of the machine: both units' invariants (R14, R19). -/
def State.Inv (s : State) : Prop := EncInv s.enc s.encPort.busy ∧ DecInv s.params s.dec

/-- Everything the sink has taken since power-on (R21, R123). -/
def State.delivered (s : State) : List SinkItem := s.sink.past ++ s.sink.trace

/-- Two results of a BW.APPEND that no observer can tell apart (R78): the same result, but for the pending
byte of a unit that is faulted or waits for ever. -/
def SameSeen (x y : BwResult) : Prop :=
  match x, y with
  | .ok v, .ok w => v = w
  | .raised c v, .raised d w =>
    c = d ∧ v.sink = w.sink ∧ v.enc.fault = w.enc.fault ∧ v.enc.cause = w.enc.cause ∧
      v.enc.closed = w.enc.closed
  | .blocked v, .blocked w =>
    v.sink = w.sink ∧ v.enc.fault = w.enc.fault ∧ v.enc.cause = w.enc.cause ∧ v.enc.closed = w.enc.closed
  | .refused q, .refused r => q = r
  | _, _ => False

/-- BR.NEXTBIT `n` times: the bits it delivered, if it delivered one each time. -/
def takeBits (p : Params) (n : Nat) (r : Reader) : Option (BitString × Reader) :=
  match n with
  | 0 => some ([], r)
  | n + 1 =>
    match brNextBit p r with
    | .bit b r1 => (takeBits p n r1).map fun x => (b :: x.1, x.2)
    | .endOfStream _ | .raised _ _ | .blocked _ => none

/-- A result of DEC.READ with `a` values counted before it (R96). -/
def DecResult.shift (a : Nat) (x : DecResult) : DecResult :=
  match x with
  | .read n eos => .read (a + n) eos
  | .faulted c n => .faulted c (a + n)
  | x => x

/-- A run of unit ENC has ended well: ENC.CLOSE returned without fault, and no operation of it was
refused (R136). -/
def EncRunEnded (s : State) : Prop :=
  s.enc.closed = true ∧ s.enc.fault = false ∧ s.encPort.busy = false ∧ s.encPort.marked = none

/-- The host stops reading: among its lines still to come no DEC.READ stands before the next DEC.RST, with
which the next run begins (R29, R136). -/
def stopsReading (lines : List HostLine) : Bool :=
  match lines with
  | [] => true
  | .decCmd code _ :: rest => code = 3 || (code ≠ 1 && stopsReading rest)
  | .encCmd _ _ :: rest => stopsReading rest
  | .src _ :: rest => stopsReading rest

/-- A run of unit DEC has ended well: a DEC.READ returned normally, and either it reported `eos = 1` or the
host stops reading after it; no fault, and no operation of the run was refused (R136). -/
def DecRunEnded (s : State) : Prop :=
  (∃ n eos, s.decPort.result = .read n eos ∧ (eos = true ∨ stopsReading s.pending = true)) ∧
    s.dec.fault = false ∧ s.decPort.busy = false ∧ s.decPort.marked = none

end Sys2Proof.Machine
end

