-- ==== Sys2Proof/Certificates/Slice0/Obligations.lean ====
section
/-! DEFINITION. The statements for the provers. Each docstring names the rule of spec/ it formalises; where a
clause is the spec's own decision (its mark "decision: see 92_eei_decisions.md D<n>") or the model's choice (a
log entry), the docstring says so. -/

open Sys2Proof Sys2Proof.Machine

/-! ### Encodings -/

/-- spec/30_encoding.md R63 (the codes are the spec's own decision D5): what each code on each command port
is decoded to; `dec_cmd = 10` is the one reserved code. -/
def Obligations.CommandCodesDecode : Prop :=
  ∀ (p : Params) (n : Nat),
    decodeEncCmd p 0 n = .encNop ∧
    decodeEncCmd p 1 n = .encPut (portItem p n) ∧
    decodeEncCmd p 2 n = .encClose ∧
    decodeEncCmd p 3 n = .encRst ∧
    decodeDecCmd p 0 n = .ok .decNop ∧
    decodeDecCmd p 1 n = .ok (.decRead (portCap p n)) ∧
    decodeDecCmd p 2 n = .error .reservedCmd ∧
    decodeDecCmd p 3 n = .ok .decRst

/-- spec/95_test_vectors.md sections 2 and 8: a few words of the spec decode to the instructions they stand
for: the bytes 38 68 begin with cw(6), 01 00 with cw(127), and the commands of P6 and P2. -/
def Obligations.SampleWordsDecode : Prop :=
  decodeBytes [0x38#8, 0x68#8] = .ok (.cwK2 3#2 false, numBits 10 0x068) ∧
  decodeBytes [0x01#8, 0x00#8] = .ok (.cwK7 0#7 false, []) ∧
  decodeCodeword [true, false] = .ok (.cwK0, [false]) ∧
  decode Params.default (.encCmd 1 0x80000002) = .ok (.encPut (-2147483646), []) ∧
  decode Params.default (.decCmd 1 5) = .ok (.decRead 5, [])

/-- spec/30_encoding.md R50, R51, R63 (the codes of the commands are the spec's own decision D5): decoding what
the encoder writes gives the instruction back, for every
instruction whose operands fit their ports, at every choice of the parameters that R8 allows. -/
def Obligations.DecodeEncode : Prop :=
  ∀ (p : Params) (i : Instr), p.Valid → i.FitsPorts p → decode p (encode p i) = .ok (i, [])

/-- spec/30_encoding.md R57: the decoder tells the length of a codeword by itself: whatever bits follow a
codeword, it reads that codeword and leaves those bits. -/
def Obligations.CodewordLengthIsFound : Prop :=
  ∀ (i : Instr) (k m : Nat) (neg : Bool) (rest : BitString),
    codewordFields i = some (k, m, neg) →
      decodeCodeword (codewordBits k m neg ++ rest) = .ok (i, rest)

/-- spec/30_encoding.md R50: the other direction: what the decoder reads off a bit string is the codeword
that stands at its front, bit for bit. -/
def Obligations.DecodedCodewordStandsInFront : Prop :=
  ∀ (bits rest : BitString) (i : Instr),
    decodeCodeword bits = .ok (i, rest) →
      ∃ k m neg, codewordFields i = some (k, m, neg) ∧ bits = codewordBits k m neg ++ rest

/-- spec/30_encoding.md R66 (the spec's own decision D5): the codeword rows never overlap: of all classes at
most one selects the front of
a bit string. -/
def Obligations.CodewordRowsDoNotOverlap : Prop :=
  ∀ (k j : Nat) (bits : BitString),
    (codewordRow k).length ≤ bits.length → (codewordRow j).length ≤ bits.length →
    bitsNat (bits.take (codewordRow k).length) &&& (codewordRow k).maskBits = (codewordRow k).matchBits →
    bitsNat (bits.take (codewordRow j).length) &&& (codewordRow j).maskBits = (codewordRow j).matchBits →
    k = j

/-- spec/30_encoding.md R55, first half: no codeword is a prefix of another. -/
def Obligations.CodewordsArePrefixFree : Prop :=
  ∀ (a b : Int), cw a <+: cw b → a = b

/-- spec/30_encoding.md R55, second half (marked derived there): with no bound on the class, every bit string
is a concatenation of codewords followed by a proper prefix of a codeword. -/
def Obligations.CodeIsComplete : Prop :=
  ∀ (bits : BitString), ∃ (items : List Int) (tail : BitString) (v : Int),
    bits = cws items ++ tail ∧ tail <+: cw v ∧ tail ≠ cw v

/-- spec/30_encoding.md R52: the length of a codeword: 1 for zero, `2*nbits + 2` for the rest (so its growth
is that of the bit length of the biased magnitude), non-decreasing in the magnitude and the same for both
signs, 4 bits for 1, -1, 2 and -2. -/
def Obligations.CodewordLength : Prop :=
  (∀ n : Int, (cw n).length = if n = 0 then 1 else 2 * nbits n + 2) ∧
  (∀ n : Int, n ≠ 0 → (cw n).length = 2 * (n.natAbs + 1).log2 + 2) ∧
  (∀ m n : Int, m.natAbs ≤ n.natAbs → (cw m).length ≤ (cw n).length) ∧
  (∀ n : Int, (cw (-n)).length = (cw n).length) ∧
  (∀ n : Int, n = 1 ∨ n = -1 ∨ n = 2 ∨ n = -2 → (cw n).length = 4)

/-- spec/30_encoding.md R54 (marked derived there): a nonzero integer's codeword, read as one number, is its
biased magnitude shifted left by one with the sign in bit 0. -/
def Obligations.CodewordAsNumber : Prop :=
  ∀ n : Int, n ≠ 0 → bitsNat (cw n) = 2 * biased n + (signBit n).toNat

/-- spec/30_encoding.md R53 (marked derived there): the magnitudes of class `k`, and that an integer's
codeword has the fields of its class. -/
def Obligations.ClassOfAnInteger : Prop :=
  (∀ (n : Int) (k : Nat), nbits n = k ↔ 2 ^ k - 1 ≤ n.natAbs ∧ n.natAbs ≤ 2 ^ (k + 1) - 2) ∧
  (∀ n : Int, cw n = codewordBits (nbits n) (low (biased n) (nbits n)) (signBit n))

/-- spec/30_encoding.md R56: the value of the fields of a codeword: 0 in class 0, else the biased magnitude
`2^k + m` less 1, with the sign bit's sign; and it is the inverse of the encoder's fields
(spec/40_codeword_encoder.md R67): an integer's fields have that integer as their value, and every combination
of fields of a class is the codeword of its value. -/
def Obligations.FieldsAndValuesAgree : Prop :=
  (∀ (m : Nat) (neg : Bool), codewordValue 0 m neg = 0) ∧
  (∀ (k m : Nat), 1 ≤ k → codewordValue k m false = 2 ^ k + m - 1 ∧
    codewordValue k m true = -(2 ^ k + m - 1)) ∧
  (∀ n : Int, codewordValue (nbits n) (low (biased n) (nbits n)) (signBit n) = n) ∧
  (∀ (k m : Nat) (neg : Bool), 1 ≤ k → m < 2 ^ k →
    cw (codewordValue k m neg) = codewordBits k m neg)

/-! ### The writer -/

/-- spec/41_bitwriter.md R77: bits of the pattern at positions `count` and above are ignored, and a count of
0 changes nothing. -/
def Obligations.AppendIgnoresHighBits : Prop :=
  ∀ (p : Params) (pattern count : Nat) (w : Writer),
    bwAppend p pattern count w = bwAppend p (low pattern count) count w ∧
    bwAppend p pattern 0 w = .ok w

/-- spec/41_bitwriter.md R78 (marked derived there): the chunked form of BW.APPEND makes the same sink calls
and leaves the same
pending byte as the bit-by-bit form, from every open writer and whatever the sink answers (what they may
differ in after a failure is not observable). -/
def Obligations.ChunkedAppendIsSeenAsBitwise : Prop :=
  ∀ (p : Params) (pattern count : Nat) (w : Writer), w.Open →
    SameSeen (bwAppend p pattern count w) (bwAppendChunked p pattern count w)

/-- spec/41_bitwriter.md R80 (marked derived there): after appending a bit string, the bytes of the sink trace
with the pending bits after them spell what they spelt before with that string after it, and no full byte is
held back. -/
def Obligations.WriterLaw : Prop :=
  ∀ (p : Params) (bits : BitString) (w : Writer), w.Open → w.sink.Reliable p →
    ∃ w1, bwBits p bits w = .ok w1 ∧ w1.Open ∧ w1.bits = w.bits ++ bits ∧
      w1.enc.pos = (w.enc.pos + bits.length) % 8 ∧
      (∃ bytes : List Byte, w1.sink.trace = w.sink.trace ++ bytes.map SinkItem.byte ∧
        bytes.length = (w.enc.pos + bits.length) / 8) ∧
      w1.sink.past = w.sink.past ∧
      w1.enc.closed = w.enc.closed ∧ w1.enc.fault = w.enc.fault ∧ w1.enc.cause = w.enc.cause

/-! ### The commands of unit ENC -/

/-- spec/40_codeword_encoder.md R68: ENC.PUT of an item in range, on an open unfaulted unit whose sink
answers, completes: the item's codeword is appended to the stream, full bytes go to the sink at once, and
everything else is as it was. -/
def Obligations.PutAppendsCodeword : Prop :=
  ∀ (s : State) (item : Int), s.params.Valid → InRange s.params item →
    s.enc.fault = false → s.enc.closed = false → s.writer.Open → s.sink.Reliable s.params →
    ∃ t, exec (.encPut item) s = .next t ∧
      t.writer.Open ∧ t.writer.bits = s.writer.bits ++ cw item ∧
      t.enc.pos = (s.enc.pos + (cw item).length) % 8 ∧
      (∃ bytes : List Byte, t.sink.trace = s.sink.trace ++ bytes.map SinkItem.byte ∧
        bytes.length = (s.enc.pos + (cw item).length) / 8) ∧
      t.sink.past = s.sink.past ∧
      t.enc.closed = false ∧ t.enc.fault = false ∧ t.enc.cause = s.enc.cause ∧
      t.encPort = { s.encPort with result := .returned } ∧
      t.params = s.params ∧ t.dec = s.dec ∧ t.decPort = s.decPort ∧ t.source = s.source ∧
      t.out = s.out ∧ t.pending = s.pending

/-- spec/60_exceptions.md R110 with R108 (the refusals are the spec's own decisions D10, D11, D17, D24; the
report and the mark are log entry 8): ENC.PUT tests fault, then closed, then the range of its item, and a
refusal changes no state of the unit or of the sink. -/
def Obligations.PutRefusals : Prop :=
  ∀ (s : State) (item : Int),
    (s.enc.fault = true → exec (.encPut item) s = .next (encRefuse .encFaulted s)) ∧
    (s.enc.fault = false → s.enc.closed = true →
      exec (.encPut item) s = .next (encRefuse .encClosed s)) ∧
    (s.enc.fault = false → s.enc.closed = false → ¬ InRange s.params item →
      exec (.encPut item) s = .next (encRefuse .encRange s)) ∧
    (∀ r, (encRefuse r s).enc = s.enc ∧ (encRefuse r s).sink = s.sink ∧
      (encRefuse r s).encPort.result = .refused r ∧ (encRefuse r s).encPort.marked ≠ none)

/-- Frame of ENC.PUT and ENC.CLOSE (spec/40_codeword_encoder.md R68, R70, "State written"): unit DEC, its
source and buffer, the parameters and the host's lines are unchanged, the sink trace only grows, what the sink
took before the last ENC.RST stays, the fault and its cause change only with a reported fault, and ENC.PUT does
not touch `closed`. -/
def Obligations.PutAndCloseFrame : Prop :=
  ∀ (s t : State) (i : Instr), (i = .encClose ∨ ∃ item, i = .encPut item) → exec i s = .next t →
    t.params = s.params ∧ t.dec = s.dec ∧ t.decPort = s.decPort ∧ t.source = s.source ∧
    t.out = s.out ∧ t.pending = s.pending ∧ t.sink.past = s.sink.past ∧ s.sink.trace <+: t.sink.trace ∧
    ((∀ c, t.encPort.result ≠ .faulted c) → t.enc.fault = s.enc.fault ∧ t.enc.cause = s.enc.cause) ∧
    (i ≠ .encClose → t.enc.closed = s.enc.closed)

/-- spec/40_codeword_encoder.md R69 (the constants are marked derived there): the constants a fast path may
use for 0, 1 and -1 give byte for byte what
the general path gives, from every writer and whatever the sink answers. -/
def Obligations.FastPathIsUnobservable : Prop :=
  ∀ (p : Params) (w : Writer), 4 ≤ p.PW →
    putBits p 0 w = bwAppend p 1 1 w ∧ putBits p 1 w = bwAppend p 4 4 w ∧
    putBits p (-1) w = bwAppend p 5 4 w

/-- spec/40_codeword_encoder.md R70 with spec/41_bitwriter.md R79 (no byte for an empty close is the spec's
own decision D9): ENC.CLOSE on an open unfaulted unit whose sink answers completes: the partial byte if there
is one, then the flush marker, and the unit is closed. -/
def Obligations.CloseCompletes : Prop :=
  ∀ (s : State), s.enc.fault = false → s.enc.closed = false → s.enc.pos ≤ 7 →
    s.sink.Reliable s.params →
    ∃ t, exec .encClose s = .next t ∧
      t.sink.trace =
        s.sink.trace ++ (if 0 < s.enc.pos then [SinkItem.byte s.enc.acc] else []) ++ [SinkItem.flush] ∧
      t.enc = { s.enc with acc := if 0 < s.enc.pos then 0 else s.enc.acc, pos := 0, closed := true } ∧
      t.encPort = { s.encPort with result := .returned } ∧
      t.sink.past = s.sink.past ∧ t.params = s.params ∧ t.dec = s.dec ∧ t.decPort = s.decPort ∧
      t.source = s.source ∧ t.out = s.out ∧ t.pending = s.pending

/-- spec/41_bitwriter.md R79, the padding: from an open writer the bytes of a closed stream spell the bits
appended and then `(-L) mod 8` zeros (spec/20_memory.md R35), and the run of the unit has ended well
(spec/70_reset_and_hazards.md R136) if nothing of it was refused. -/
def Obligations.ClosePadsWithZeros : Prop :=
  ∀ (s : State), s.enc.fault = false → s.enc.closed = false → s.writer.Open →
    s.sink.Reliable s.params → s.encPort.busy = false → s.encPort.marked = none →
    ∃ t, exec .encClose s = .next t ∧
      bytesBits (sinkBytes t.sink.trace) =
        s.writer.bits ++ List.replicate (padLen s.writer.bits.length) false ∧
      EncRunEnded t

/-- spec/40_codeword_encoder.md R70 (the refusals are the spec's own decisions D10, D17): a faulted or closed
unit refuses ENC.CLOSE, with no second flush. -/
def Obligations.CloseRefusals : Prop :=
  ∀ (s : State),
    (s.enc.fault = true → exec .encClose s = .next (encRefuse .encFaulted s)) ∧
    (s.enc.fault = false → s.enc.closed = true → exec .encClose s = .next (encRefuse .encClosed s))

/-- spec/60_exceptions.md R105, R110, R112 for ENC.CLOSE (the spec's own decision D17): when the write of the
partial byte fails, the flush is not attempted, nothing is appended to the trace, the fault and its cause are
set, and the unit is not closed. -/
def Obligations.CloseWriteFails : Prop :=
  ∀ (s : State) (rest : List SinkAnswer), s.enc.fault = false → s.enc.closed = false →
    0 < s.enc.pos → s.enc.pos ≤ 7 → s.params.hasIoErr = true → s.sink.plan = .fail :: rest →
    exec .encClose s =
      .next
        { s with
          enc := { s.enc with fault := true, cause := .ioFailSink }
          sink := { s.sink with plan := rest }
          encPort := { s.encPort with result := .faulted .ioFailSink } }

/-- spec/60_exceptions.md R103, R105 (the spec's own decision D17): ENC.PUT and ENC.CLOSE can raise only
IoFailSink, and only with HAS_IO_ERR; then the fault and its cause are set, bytes already written stay in the
trace, and `closed` is not set. -/
def Obligations.EncFaultsAreIoFailSink : Prop :=
  ∀ (s t : State) (i : Instr) (c : OutcomeCode), (i = .encClose ∨ ∃ item, i = .encPut item) →
    exec i s = .next t → t.encPort.result = .faulted c →
    c = .ioFailSink ∧ s.params.hasIoErr = true ∧ s.enc.fault = false ∧ t.enc.fault = true ∧
      t.enc.cause = .ioFailSink ∧ t.enc.closed = false ∧ s.sink.trace <+: t.sink.trace

/-- spec/70_reset_and_hazards.md R123 (the spec's own decision D20; `past`, the report and the mark are log
entry 8): ENC.RST is accepted in every state, sets every field of the unit to 0, restarts the sink trace, makes
no transport call, and leaves what the sink took where it went. -/
def Obligations.EncRstEffect : Prop :=
  ∀ (s : State), ∃ t, exec .encRst s = .next t ∧
    t.enc.acc = 0 ∧ t.enc.pos = 0 ∧ t.enc.closed = false ∧ t.enc.fault = false ∧ t.enc.cause = .none ∧
    t.sink.trace = [] ∧ t.delivered = s.delivered ∧ t.sink.plan = s.sink.plan ∧
    t.encPort = { s.encPort with result := .returned, marked := none } ∧
    t.params = s.params ∧ t.dec = s.dec ∧ t.decPort = s.decPort ∧ t.source = s.source ∧
    t.out = s.out ∧ t.pending = s.pending

/-- spec/30_encoding.md R63 (the spec's own decision D5): ENC.NOP and DEC.NOP return in every state, with no
change at all. -/
def Obligations.NopsDoNothing : Prop :=
  ∀ (s : State), exec .encNop s = .next s ∧ exec .decNop s = .next s

/-- spec/10_state.md R26, R27 (the spec's own decision D20): the state after power-on. -/
def Obligations.ResetValues : Prop :=
  State.reset.enc = { acc := 0, pos := 0, closed := false, fault := false, cause := .none } ∧
  State.reset.sink.trace = [] ∧
  State.reset.dec =
    { st := .countingZeros, zc := 0, acc := 0, rem := 0, cur := 0, left := 0, eos := false,
      fault := false, cause := .none } ∧
  encStatus State.reset = 0 ∧ decStatus State.reset = 0

/-- spec/10_state.md R22, R23 (the spec's own decision D19): the bits of the two status registers. -/
def Obligations.StatusBits : Prop :=
  ∀ (s : State),
    (encStatus s).getLsbD 0 = s.enc.closed ∧ (encStatus s).getLsbD 1 = s.enc.fault ∧
    ((encStatus s).extractLsb' 2 3).toNat = s.enc.cause.code ∧ (encStatus s).extractLsb' 5 3 = 0 ∧
    (decStatus s).getLsbD 0 = s.dec.eos ∧ (decStatus s).getLsbD 1 = s.dec.fault ∧
    ((decStatus s).extractLsb' 2 3).toNat = s.dec.cause.code ∧ (decStatus s).extractLsb' 5 3 = 0

/-! ### The decoder FSM and the reader -/

/-- spec/43_decoder_fsm.md R86: DEC.STEP in CountingZeros (its overrange branch is the spec's own decision
D15). -/
def Obligations.StepCountingZeros : Prop :=
  ∀ (p : Params) (d : Dec), d.st = .countingZeros →
    decStep p false d = .quiet { d with zc := d.zc + 1 } ∧
    (d.zc = 0 → decStep p true d = .emit 0 d) ∧
    (d.zc ≠ 0 → d.zc ≤ p.nbitsMax →
      decStep p true d = .quiet { d with acc := 1, rem := d.zc, st := .shiftingBits }) ∧
    (p.nbitsMax < d.zc → decStep p true d = .raised .decOverrange (decRaise .decOverrange d))

/-- spec/43_decoder_fsm.md R87: DEC.STEP in ShiftingBits: what it does, that it never emits, that the
accumulator stays below `2^(W-1)` in contract (R19's clause) and ends at `2^zc - 1` at least, and that the
state is only entered with at least one bit to read. -/
def Obligations.StepShiftingBits : Prop :=
  (∀ (p : Params) (b : Bool) (d : Dec), d.st = .shiftingBits →
    (d.rem = 1 → decStep p b d =
      .quiet { d with acc := 2 * d.acc + b.toNat - 1, rem := 0, st := .readingSign }) ∧
    (1 < d.rem → decStep p b d = .quiet { d with acc := 2 * d.acc + b.toNat, rem := d.rem - 1 }) ∧
    (FsmInv p d → 1 ≤ d.rem ∧ 2 * d.acc + b.toNat < 2 ^ (p.W - 1) ∧
      (d.rem = 1 → 2 ^ d.zc - 1 ≤ 2 * d.acc + b.toNat - 1 ∧ 1 ≤ 2 ^ d.zc - 1))) ∧
  (∀ (p : Params) (b : Bool) (d d1 : Dec), d.st ≠ .shiftingBits → decStep p b d = .quiet d1 →
    d1.st = .shiftingBits → 1 ≤ d1.rem)

/-- spec/43_decoder_fsm.md R88: DEC.STEP in ReadingSign: what it does and emits, and that in contract (R19's
clause) the emitted value is in range and never 0. -/
def Obligations.StepReadingSign : Prop :=
  ∀ (p : Params) (d : Dec), d.st = .readingSign →
    decStep p true d = .emit (-(d.acc : Int)) { d with zc := 0, st := .countingZeros } ∧
    decStep p false d = .emit (d.acc : Int) { d with zc := 0, st := .countingZeros } ∧
    (FsmInv p d → 1 ≤ d.acc ∧ InRange p (d.acc : Int) ∧ InRange p (-(d.acc : Int)))

/-- spec/10_state.md R16, R18 with spec/43_decoder_fsm.md R85: the register form and the canonical form of the
FSM make the same transitions and emit the same values, so no output depends on a register in a state where it
means nothing. -/
def Obligations.RegisterFormIsCanonical : Prop :=
  ∀ (p : Params) (b : Bool) (d : Dec), (d.st = .shiftingBits → 1 ≤ d.rem) →
    (decStep p b d).fsm = fsmStep p b d.fsm

/-- spec/10_state.md R19 (marked derived there): a zero counter that saturates at NBITS_MAX + 1 shows no
difference: its steps from a saturated state are the saturated steps of the unbounded counter. -/
def Obligations.SaturatingCounterIsUnobservable : Prop :=
  ∀ (p : Params) (b : Bool) (d : Dec),
    decStepSaturating p b (d.saturate p) = (decStep p b d).saturate p

/-- spec/42_bitreader.md R82, R83 (R83 marked derived there): from a source that serves, BR.NEXTBIT delivers
the buffered bits and then the bits of the source content, most significant first, pulls a byte only when one
is needed, and answers EndOfStream when no bit is left. -/
def Obligations.ReaderDeliversInOrder : Prop :=
  ∀ (p : Params) (r : Reader) (n : Nat), r.dec.left ≤ 8 → r.dec.eos = false → r.source.Reliable p →
    n ≤ r.bits.length →
    ∃ r1, takeBits p n r = some (r.bits.take n, r1) ∧ r1.bits = r.bits.drop n ∧
      r1.source.content = r.source.content.drop ((n - r.dec.left + 7) / 8) ∧
      (n = r.bits.length → ∃ r2, brNextBit p r1 = .endOfStream r2 ∧ r2.dec = { r1.dec with eos := true })

/-- spec/42_bitreader.md R84 with R91 (the latch is the spec's own decision D13): once exhaustion is latched,
BR.NEXTBIT answers EndOfStream and DEC.READ returns no value and `eos`, with no transport call and no state
change. -/
def Obligations.ExhaustionIsResignalled : Prop :=
  ∀ (s : State) (cap : Nat), s.dec.eos = true → s.dec.left = 0 →
    brNextBit s.params s.reader = .endOfStream s.reader ∧
    (s.dec.fault = false → s.dec.illegal = false →
      exec (.decRead cap) s = .next (s.withDecResult (.read 0 true)))

/-- The model's bound on the loop of DEC.READ is no bound: more fuel gives the same result
(spec/70_reset_and_hazards.md R134: a call makes finitely many bit steps). -/
def Obligations.ReadFuelIsEnough : Prop :=
  ∀ (p : Params) (r : Reader) (cap n extra : Nat),
    readLoop p (readFuel r + extra) cap n r = readLoop p (readFuel r) cap n r

/-! ### The commands of unit DEC -/

/-- spec/43_decoder_fsm.md R89 (that nothing beyond the last bit is consumed is the spec's own decision D16;
that
later slots keep what they held is its decision D31, log entry 4): DEC.READ of as many values as the stream
begins with completes, from every state between two codewords: it stores exactly those values in order, leaves
every later slot alone, consumes no bit beyond the last one of the last value, and stands between two codewords
again. -/
def Obligations.ReadDecodesStream : Prop :=
  ∀ (s : State) (vs : List Int) (rest : BitString),
    s.dec.BetweenCodewords → s.source.Reliable s.params → (∀ v ∈ vs, InRange s.params v) →
    s.reader.bits = cws vs ++ rest →
    ∃ t, exec (.decRead vs.length) s = .next t ∧
      t.decPort = { s.decPort with result := .read vs.length false } ∧
      t.out.take vs.length = vs ∧ t.out.drop vs.length = s.out.drop vs.length ∧
      t.reader.bits = rest ∧ t.dec.BetweenCodewords ∧
      t.params = s.params ∧ t.enc = s.enc ∧ t.encPort = s.encPort ∧ t.sink = s.sink ∧
      t.pending = s.pending

/-- spec/43_decoder_fsm.md R90, R95 (R95 marked derived there; that later slots keep what they held is the
spec's
own decision D31, log entry 4): DEC.READ of more values than a stream holds ends at exhaustion with the values
that are whole and no other, when what follows them is a truncated codeword or zeros (the padding of a closed
stream among them); it is no fault. -/
def Obligations.TruncatedTailIsDropped : Prop :=
  ∀ (s : State) (vs : List Int) (tail : BitString) (cap : Nat),
    s.dec.BetweenCodewords → s.source.Reliable s.params → (∀ v ∈ vs, InRange s.params v) →
    s.reader.bits = cws vs ++ tail →
    ((∃ v, InRange s.params v ∧ tail <+: cw v ∧ tail ≠ cw v) ∨ tail = List.replicate tail.length false) →
    vs.length < cap →
    ∃ t, exec (.decRead cap) s = .next t ∧
      t.decPort = { s.decPort with result := .read vs.length true } ∧
      t.out.take vs.length = vs ∧ t.out.drop vs.length = s.out.drop vs.length ∧
      t.dec.fault = false ∧ t.dec.eos = true ∧ t.dec.left = 0 ∧ t.source.content = []

/-- spec/43_decoder_fsm.md R96 (marked derived there): two reads give the values, the state and the end that
one read of both capacities gives, when the first fills its buffer. -/
def Obligations.ReadsMayBeSplit : Prop :=
  ∀ (s t u : State) (a b : Nat) (e : Bool),
    exec (.decRead a) s = .next t → t.decPort.result = .read a e → exec (.decRead b) t = .next u →
    ∃ v, exec (.decRead (a + b)) s = .next v ∧ v.dec = u.dec ∧ v.source = u.source ∧
      v.decPort.result = u.decPort.result.shift a ∧ v.out.take a = t.out.take a ∧
      (v.out.drop a).take u.decPort.result.count = u.out.take u.decPort.result.count

/-- spec/43_decoder_fsm.md R89, corner cases, with R111 (the capacity test first is the spec's own decision
D16): a faulted unit refuses; otherwise DEC.READ 0 consumes nothing and returns no value. -/
def Obligations.ReadZeroAndRefusal : Prop :=
  ∀ (s : State),
    (∀ cap, s.dec.fault = true → exec (.decRead cap) s = .next (decRefuse .decFaulted s)) ∧
    (s.dec.fault = false → s.dec.illegal = false →
      exec (.decRead 0) s = .next (s.withDecResult (.read 0 s.dec.eos)))

/-- spec/60_exceptions.md R106 (the spec's own decision D15): a separator after more than NBITS_MAX zeros
raises DecOverrange: the tag and the zero count stay, the separator is consumed, no value is stored, the fault
and its cause are set. -/
def Obligations.OverrangeFaults : Prop :=
  ∀ (s : State) (cap : Nat), s.dec.fault = false → s.dec.st = .countingZeros →
    s.params.nbitsMax < s.dec.zc → 0 < s.dec.left → s.dec.left ≤ 8 →
    s.dec.cur.getLsbD (s.dec.left - 1) = true → 0 < cap →
    exec (.decRead cap) s =
      .next
        { s with
          dec := { s.dec with left := s.dec.left - 1, fault := true, cause := .decOverrange }
          decPort := { s.decPort with result := .faulted .decOverrange 0 } }

/-- spec/42_bitreader.md R82 with spec/60_exceptions.md R105 (the spec's own decision D17): a SourceRead that
fails ends DEC.READ with IoFailSource; the FSM and the loaded byte stay as they were. -/
def Obligations.SourceFailureFaults : Prop :=
  ∀ (s : State) (cap : Nat) (rest : List SourceTurn), s.dec.fault = false → s.dec.illegal = false →
    s.dec.left = 0 → s.dec.eos = false → s.params.hasIoErr = true → s.source.plan = .fail :: rest →
    0 < cap →
    exec (.decRead cap) s =
      .next
        { s with
          dec := { s.dec with fault := true, cause := .ioFailSource }
          source := { s.source with trace := s.source.trace ++ [.fail], plan := rest }
          decPort := { s.decPort with result := .faulted .ioFailSource 0 } }

/-- Frame and results of DEC.READ (spec/43_decoder_fsm.md R89 "State written", spec/20_memory.md R36, R39;
that slots at or beyond the count keep what they held is the spec's own decision D31, log entry 4; that the
count of a call that waits for ever is 0 is the model's choice, log entry 12): the count is at most the
capacity, and below it only at exhaustion; slots at or beyond the count keep what they held; the source loses
a front part of its content; unit ENC is unchanged; the fault and its cause change only with a reported fault,
and the latch is never cleared. -/
def Obligations.ReadFrame : Prop :=
  ∀ (s t : State) (cap : Nat), exec (.decRead cap) s = .next t →
    t.params = s.params ∧ t.enc = s.enc ∧ t.encPort = s.encPort ∧ t.sink = s.sink ∧
    t.pending = s.pending ∧
    (∃ pulled, s.source.content = pulled ++ t.source.content) ∧
    (∀ j, cap ≤ j → t.out[j]? = s.out[j]?) ∧
    (t.decPort.result ≠ .waiting → ∀ j, t.decPort.result.count ≤ j → t.out[j]? = s.out[j]?) ∧
    t.decPort.result.count ≤ cap ∧
    (∀ n e, t.decPort.result = .read n e → n < cap → e = true) ∧
    ((∀ c n, t.decPort.result ≠ .faulted c n) → t.dec.fault = s.dec.fault ∧ t.dec.cause = s.dec.cause) ∧
    (s.dec.eos = true → t.dec.eos = true)

/-- spec/70_reset_and_hazards.md R124 (the spec's own decision D20; the list of source answers, the report and
the mark are log entry 8): DEC.RST is accepted in every state, puts the unit into its reset state, makes no
transport call and leaves the source content, the output buffer and unit ENC alone. -/
def Obligations.DecRstEffect : Prop :=
  ∀ (s : State), ∃ t, exec .decRst s = .next t ∧
    t.dec.st = .countingZeros ∧ t.dec.zc = 0 ∧ t.dec.acc = 0 ∧ t.dec.rem = 0 ∧ t.dec.cur = 0 ∧
    t.dec.left = 0 ∧ t.dec.eos = false ∧ t.dec.fault = false ∧ t.dec.cause = .none ∧
    t.source.content = s.source.content ∧ t.source.plan = s.source.plan ∧ t.source.trace = [] ∧
    t.decPort = { s.decPort with result := .returned, marked := none } ∧
    t.params = s.params ∧ t.enc = s.enc ∧ t.encPort = s.encPort ∧ t.sink = s.sink ∧
    t.out = s.out ∧ t.pending = s.pending

/-! ### The codeword classes -/

/-- spec/30_encoding.md R56 by spec/43_decoder_fsm.md R86 to R88: every codeword class CW.K0 to CW.K30, on a
unit that stands between two codewords and whose accumulator takes the class, completes with exactly one value,
the one its fields stand for, and leaves the unit between two codewords. That a codeword is an instruction of
its own, beside the reader, is the model's choice (log entry 2), and that later slots keep what they held is the
spec's own decision D31 (log entry 4). -/
def Obligations.CodewordEmitsItsValue : Prop :=
  ∀ (s : State) (i : Instr) (k m : Nat) (neg : Bool), codewordFields i = some (k, m, neg) →
    s.dec.BetweenCodewords → k ≤ s.params.nbitsMax →
    exec i s =
      .next
        { s with
          dec := if k = 0 then s.dec else { s.dec with acc := 2 ^ k + m - 1, rem := 0 }
          out := codewordValue k m neg :: s.out.drop 1
          decPort := { s.decPort with result := .read 1 false } }

/-- spec/60_exceptions.md R106 for the codeword classes (the spec's own decision D15; log entry 2): a class
above NBITS_MAX, which a block built with a smaller W can meet, faults at its separator and emits nothing. -/
def Obligations.CodewordOverrangeFaults : Prop :=
  ∀ (s : State) (i : Instr) (k m : Nat) (neg : Bool), codewordFields i = some (k, m, neg) →
    s.dec.BetweenCodewords → s.params.nbitsMax < k →
    exec i s =
      .next
        { s with
          dec := { s.dec with zc := k, fault := true, cause := .decOverrange }
          decPort := { s.decPort with result := .faulted .decOverrange 0 } }

/-- Frame of the codeword classes (spec/43_decoder_fsm.md R85: DEC.STEP calls no transport). That a codeword
is an
instruction is the model's choice (log entry 2), and that slots at or beyond the count keep what they held is the
spec's own decision D31 (log entry 4). Whatever state the unit is in, only its FSM fields, its fault and cause
(with a reported fault), the output buffer below the count and its report change. -/
def Obligations.CodewordFrame : Prop :=
  ∀ (s t : State) (i : Instr), (codewordFields i).isSome → exec i s = .next t →
    t.params = s.params ∧ t.enc = s.enc ∧ t.encPort = s.encPort ∧ t.sink = s.sink ∧
    t.source = s.source ∧ t.pending = s.pending ∧
    t.dec.cur = s.dec.cur ∧ t.dec.left = s.dec.left ∧ t.dec.eos = s.dec.eos ∧
    (t.decPort.busy = s.decPort.busy) ∧
    ((∀ c n, t.decPort.result ≠ .faulted c n) → t.dec.fault = s.dec.fault ∧ t.dec.cause = s.dec.cause) ∧
    ∀ j, t.decPort.result.count ≤ j → t.out[j]? = s.out[j]?

/-- DEC.READ 1 executes the codeword that stands at its reader (spec/43_decoder_fsm.md R89, spec/30_encoding.md
R57): it ends as that codeword's instruction ends, with the reader moved past the codeword's bits. That a codeword
has an instruction of its own is the model's choice and no rule of the spec (log entry 2); that DEC.READ consumes
no bit more is the spec's own decision D16. -/
def Obligations.ReadRunsTheCodeword : Prop :=
  ∀ (s : State) (i : Instr) (k m : Nat) (neg : Bool) (rest : BitString),
    codewordFields i = some (k, m, neg) → s.dec.BetweenCodewords → k ≤ s.params.nbitsMax →
    s.source.Reliable s.params → s.reader.bits = codewordBits k m neg ++ rest →
    ∃ t u, exec (.decRead 1) s = .next t ∧ exec i s = .next u ∧
      t.out = u.out ∧ t.decPort = u.decPort ∧
      t.dec = { u.dec with cur := t.dec.cur, left := t.dec.left } ∧ t.reader.bits = rest ∧
      t.enc = u.enc ∧ t.encPort = u.encPort ∧ t.sink = u.sink

/-! ### The machine -/

/-- spec/30_encoding.md R63, R64 with spec/10_state.md R20 (the codes are the spec's own decision D5; the list
of lines is log entry 5): when a command is next and its unit is ready, the step takes the line and runs the
decoded instruction on the state that is left. -/
def Obligations.StepRunsTheDecodedCommand : Prop :=
  (∀ (s : State) (code : BitVec 2) (item : Nat) (rest : List HostLine),
    s.pending = .encCmd code item :: rest → s.encPort.busy = false →
    step s = exec (decodeEncCmd s.params code item) { s with pending := rest }) ∧
  (∀ (s : State) (code : BitVec 2) (cap : Nat) (rest : List HostLine) (i : Instr),
    s.pending = .decCmd code cap :: rest → s.decPort.busy = false →
    decodeDecCmd s.params code cap = .ok i →
    step s = exec i { s with pending := rest })

/-- spec/30_encoding.md R63, spec/60_exceptions.md R108 and R121 (the refusals are the spec's own decisions D5
and D21; the list of lines is log entry 5, the refusal of every command to a waiting unit log entry 9): the
steps that run no instruction. -/
def Obligations.StepWithoutInstruction : Prop :=
  (∀ (s : State), s.pending = [] → step s = .next s) ∧
  (∀ (s : State) (bytes : List Byte) (rest : List HostLine), s.pending = .src bytes :: rest →
    step s = .next { s with pending := rest, source := { s.source with content := bytes } }) ∧
  (∀ (s : State) (cap : Nat) (rest : List HostLine), s.pending = .decCmd 2 cap :: rest →
    s.decPort.busy = false → step s = .next (decRefuse .reservedCmd { s with pending := rest })) ∧
  (∀ (s : State) (code : BitVec 2) (item : Nat) (rest : List HostLine),
    s.pending = .encCmd code item :: rest → s.encPort.busy = true →
    step s = .next (encRefuseBusy { s with pending := rest })) ∧
  (∀ (s : State) (code : BitVec 2) (cap : Nat) (rest : List HostLine),
    s.pending = .decCmd code cap :: rest → s.decPort.busy = true →
    step s = .next (decRefuseBusy { s with pending := rest }))

/-- spec/10_state.md R14, R19 (marked derived there): every step keeps both units' invariants, from every
state that has them. -/
def Obligations.StepKeepsInvariant : Prop :=
  ∀ (s t : State), s.Inv → step s = .next t → t.Inv

/-- spec/10_state.md R14, R19 (marked derived there): the invariants hold after power-on. -/
def Obligations.InvariantAtReset : Prop := State.reset.Inv

/-- spec/93_implementation_defined.md U11 with spec/10_state.md R14, R19 (marked derived there; that an
outcome of
spec/60_exceptions.md R103 is a next state is log entry 1): no step of a state that has the
invariants stops the machine: it always has a next state. -/
def Obligations.NoStepStops : Prop :=
  ∀ (s : State), s.Inv → ∃ t, step s = .next t

/-- spec/60_exceptions.md R107 (the spec's own decision D17): faults are sticky: on a faulted unit every
instruction but the unit's reset leaves the unit and its transport as they were. -/
def Obligations.FaultsAreSticky : Prop :=
  ∀ (s t : State) (i : Instr), exec i s = .next t →
    (s.enc.fault = true → i ≠ .encRst → t.enc = s.enc ∧ t.sink = s.sink) ∧
    (s.dec.fault = true → i ≠ .decRst → t.dec = s.dec ∧ t.source = s.source ∧ t.out = s.out)

/-- spec/00_scope.md R2 (the spec's own decision D4) and spec/60_exceptions.md R119 (marked derived there): two
units never interact: an instruction of one and
an instruction of the other give the same state in either order. -/
def Obligations.UnitsAreIndependent : Prop :=
  ∀ (s t : State) (i j : Instr), i.unit = .enc → j.unit = .dec →
    (execAll [i, j] s = .next t ↔ execAll [j, i] s = .next t)

/-- spec/10_state.md R21 (a) and spec/20_memory.md R37: what the sink has taken is never retracted, and the
parameters are never written (spec/10_state.md R28), by any step. -/
def Obligations.SinkOnlyGrows : Prop :=
  ∀ (s t : State), step s = .next t → s.delivered <+: t.delivered ∧ t.params = s.params

/-- spec/70_reset_and_hazards.md R134 (marked derived there): under the assumption that every transport call
is eventually answered, an operation returns: no unit is left waiting. -/
def Obligations.OperationsReturn : Prop :=
  ∀ (s t : State) (i : Instr), Answered s → s.encPort.busy = false → s.decPort.busy = false →
    exec i s = .next t → t.encPort.busy = false ∧ t.decPort.busy = false

/-! ### The public operations -/

/-- spec/40_codeword_encoder.md R71 with spec/30_encoding.md R58: encode of values in range is the packing of
their codewords in order, padded with zeros to a whole byte, on a unit ENC that is ready and whose sink answers. -/
def Obligations.EncodeIsPacking : Prop :=
  ∀ (s : State) (vs : List Int), s.params.Valid → s.sink.Reliable s.params → s.encPort.busy = false →
    (∀ v ∈ vs, InRange s.params v) → encodeValues vs s = .ok (packPadded (cws vs))

/-- spec/43_decoder_fsm.md R93: decode of what encode gives is the sequence that was encoded, for every
sequence of values in range and every maximal count that is large enough ("for every `m >= n`"; how the model
reads an `m` of `2^CAPW` or more is log entry 15), on units that are ready. -/
def Obligations.RoundTrip : Prop :=
  ∀ (s : State) (vs : List Int) (m : Nat), s.params.Valid → s.sink.Reliable s.params →
    s.source.Reliable s.params → s.encPort.busy = false → s.decPort.busy = false →
    (∀ v ∈ vs, InRange s.params v) → vs.length ≤ m →
    ∃ bytes, encodeValues vs s = .ok bytes ∧ decodeValues bytes m s = .ok (vs, vs.length)

/-- spec/44_delta_wrapper.md R100 (marked derived there), R101 (the ranges are the spec's own decision D25): the
delta round trip, for every sequence whose differences are in range and whose values fit the port, whatever the
capacity of the reads (how the model reads one of `2^CAPW` or more is log entry 15); and that a unit DEC whose
operation has not returned refuses the decoding, which is the model's choice (log entries 9 and 15). -/
def Obligations.DeltaRoundTrip : Prop :=
  ∀ (s : State) (start : Int) (seq : List Int) (cap : Nat), s.params.Valid →
    s.sink.Reliable s.params → s.source.Reliable s.params → s.encPort.busy = false → 1 ≤ cap →
    (∀ d ∈ deltas start seq, InRange s.params d) → (∀ v ∈ seq, FitsValue s.params v) →
    ∃ bytes, deltaEncode start seq s = .ok bytes ∧
      (s.decPort.busy = false → deltaDecode start bytes cap s = .ok seq) ∧
      (s.decPort.busy = true → deltaDecode start bytes cap s = .refused .busy)
end

