-- ==== Sys2Proof/Laws/Bits.lean ====
section
/-! SUPPORT. Laws of bit strings, numbers and bytes. -/
namespace Sys2Proof

@[simp] theorem numBits_zero (v : Nat) : numBits 0 v = [] := rfl

theorem numBits_succ (n v : Nat) : numBits (n + 1) v = v.testBit n :: numBits n v := rfl

@[simp] theorem numBits_length (n v : Nat) : (numBits n v).length = n := by
  induction n with
  | zero => rfl
  | succ n ih => simp [numBits_succ, ih]

/-- Two numbers with the same low bits have the same numeral. -/
theorem numBits_congr (n v w : Nat) (h : ∀ i < n, v.testBit i = w.testBit i) :
    numBits n v = numBits n w := by
  induction n with
  | zero => rfl
  | succ n ih =>
    rw [numBits_succ, numBits_succ, h n (by omega), ih fun i hi => h i (by omega)]

theorem numBits_low (n v : Nat) : numBits n (low v n) = numBits n v :=
  numBits_congr n _ _ fun i hi => by simp [low, Nat.testBit_mod_two_pow, hi]

/-- A numeral splits into the numeral of its high part and the numeral of its low part. -/
theorem numBits_add (m n v : Nat) : numBits (m + n) v = numBits m (v >>> n) ++ numBits n v := by
  induction m with
  | zero => simp
  | succ m ih =>
    rw [show m + 1 + n = (m + n) + 1 by omega, numBits_succ, numBits_succ, ih]
    simp [Nat.testBit_shiftRight, Nat.add_comm]

theorem numBits_zero_value (n : Nat) : numBits n 0 = List.replicate n false := by
  induction n with
  | zero => rfl
  | succ n ih => simp [numBits_succ, ih, List.replicate_succ]

@[simp] theorem bitsNat_nil : bitsNat [] = 0 := rfl

theorem bitsNat_append_bit (bits : BitString) (b : Bool) :
    bitsNat (bits ++ [b]) = 2 * bitsNat bits + b.toNat := by
  simp [bitsNat, List.foldl_append]

/-- Reading a concatenation: the front is worth its number shifted past the back. -/
theorem bitsNat_append (xs ys : BitString) :
    bitsNat (xs ++ ys) = bitsNat xs * 2 ^ ys.length + bitsNat ys := by
  induction ys using List.reverseRecOn with
  | nil => simp
  | append_singleton ys b ih =>
    rw [← List.append_assoc, bitsNat_append_bit, ih, bitsNat_append_bit, List.length_append,
      List.length_singleton, pow_succ]
    ring

theorem bitsNat_cons (b : Bool) (bits : BitString) :
    bitsNat (b :: bits) = b.toNat * 2 ^ bits.length + bitsNat bits := by
  have h := bitsNat_append [b] bits
  simpa [bitsNat] using h

theorem bitsNat_lt (bits : BitString) : bitsNat bits < 2 ^ bits.length := by
  induction bits with
  | nil => simp
  | cons b bits ih =>
    rw [bitsNat_cons, List.length_cons, pow_succ]
    cases b <;> simp <;> omega

/-- The number of a numeral is the low part of the number. -/
theorem bitsNat_numBits (n v : Nat) : bitsNat (numBits n v) = low v n := by
  induction n with
  | zero => simp [low, Nat.mod_one]
  | succ n ih =>
    rw [numBits_succ, bitsNat_cons, ih, numBits_length, low, low, pow_succ, Nat.mod_mul,
      Nat.testBit_eq_decide_div_mod_eq]
    rcases Nat.mod_two_eq_zero_or_one (v / 2 ^ n) with h | h <;> (simp [h]; try ring)

/-- The numeral of a bit string's number is the bit string. -/
theorem numBits_bitsNat (bits : BitString) : numBits bits.length (bitsNat bits) = bits := by
  induction bits with
  | nil => rfl
  | cons b bits ih =>
    rw [List.length_cons, numBits_succ]
    have hlt := bitsNat_lt bits
    have h1 : (bitsNat (b :: bits)).testBit bits.length = b := by
      rw [bitsNat_cons, Nat.testBit_eq_decide_div_mod_eq, Nat.add_comm,
        Nat.add_mul_div_right _ _ (Nat.two_pow_pos _), Nat.div_eq_of_lt hlt]
      cases b <;> simp
    have h2 : numBits bits.length (bitsNat (b :: bits)) = numBits bits.length (bitsNat bits) := by
      rw [← numBits_low, ← numBits_low bits.length (bitsNat bits)]
      congr 1
      rw [bitsNat_cons, low, low, Nat.mul_comm, Nat.mul_add_mod]
    rw [h1, h2, ih]

@[simp] theorem bitsNat_replicate_false (n : Nat) : bitsNat (List.replicate n false) = 0 := by
  induction n with
  | zero => rfl
  | succ n ih => simp [List.replicate_succ, bitsNat_cons, ih]

@[simp] theorem byteBits_length (b : Byte) : (byteBits b).length = 8 := numBits_length 8 b.toNat

theorem byteBits_zero : byteBits 0 = List.replicate 8 false := by decide

/-- A byte made of eight bits has those bits. -/
theorem byteBits_ofBits (bits : BitString) (h : bits.length = 8) :
    byteBits (BitVec.ofNat 8 (bitsNat bits)) = bits := by
  have hlt := bitsNat_lt bits
  rw [h] at hlt
  rw [byteBits, BitVec.toNat_ofNat, Nat.mod_eq_of_lt hlt, ← h, numBits_bitsNat]

@[simp] theorem bytesBits_nil : bytesBits [] = [] := rfl

@[simp] theorem bytesBits_cons (b : Byte) (bytes : List Byte) :
    bytesBits (b :: bytes) = byteBits b ++ bytesBits bytes := rfl

@[simp] theorem bytesBits_append (xs ys : List Byte) :
    bytesBits (xs ++ ys) = bytesBits xs ++ bytesBits ys := by
  simp [bytesBits, List.flatMap_append]

@[simp] theorem bytesBits_length (bytes : List Byte) : (bytesBits bytes).length = 8 * bytes.length := by
  induction bytes with
  | nil => rfl
  | cons b bytes ih => simp [ih]; omega

/-- Packing undoes reading bytes as bits. -/
theorem pack_bytesBits (bytes : List Byte) : pack (bytesBits bytes) = bytes := by
  induction bytes with
  | nil => rfl
  | cons b bytes ih =>
    have h8 : bitsNat (byteBits b) = b.toNat := by
      rw [byteBits, bitsNat_numBits, low]; exact Nat.mod_eq_of_lt b.isLt
    have hb : byteBits b = [b.toNat.testBit 7, b.toNat.testBit 6, b.toNat.testBit 5,
        b.toNat.testBit 4, b.toNat.testBit 3, b.toNat.testBit 2, b.toNat.testBit 1,
        b.toNat.testBit 0] := rfl
    rw [bytesBits_cons, hb, List.cons_append, List.cons_append, List.cons_append, List.cons_append,
      List.cons_append, List.cons_append, List.cons_append, List.cons_append, List.nil_append, pack,
      ih, ← hb, h8]
    simp

/-- Two byte sequences that spell the same bits are equal. -/
theorem bytesBits_injective (xs ys : List Byte) (h : bytesBits xs = bytesBits ys) : xs = ys := by
  rw [← pack_bytesBits xs, h, pack_bytesBits]

/-- The bytes of a packed string spell it, when its length is a multiple of 8. -/
theorem bytesBits_pack (n : Nat) (bits : BitString) (h : bits.length = 8 * n) :
    bytesBits (pack bits) = bits := by
  induction n generalizing bits with
  | zero =>
    obtain rfl : bits = [] := List.eq_nil_of_length_eq_zero (by simpa using h)
    rfl
  | succ n ih =>
    match bits, h with
    | b7 :: b6 :: b5 :: b4 :: b3 :: b2 :: b1 :: b0 :: rest, h =>
      rw [pack, bytesBits_cons, byteBits_ofBits _ rfl, ih rest (by simp at h; omega)]
      rfl

namespace Machine

@[simp] theorem sinkBytes_nil : sinkBytes [] = [] := rfl

@[simp] theorem sinkBytes_append (xs ys : List SinkItem) :
    sinkBytes (xs ++ ys) = sinkBytes xs ++ sinkBytes ys := by
  induction xs with
  | nil => rfl
  | cons x xs ih => cases x <;> simp [sinkBytes, ih]

@[simp] theorem sinkBytes_map_byte (bytes : List Byte) :
    sinkBytes (bytes.map SinkItem.byte) = bytes := by
  induction bytes with
  | nil => rfl
  | cons b bytes ih => simp [sinkBytes, ih]

end Machine

end Sys2Proof
end

