-- ==== Sys2Proof/Laws/State.lean ====
section
/-! SUPPORT. One lemma per field per named update of State, so that no later proof unfolds an update. -/
namespace Sys2Proof.Machine

@[simp] theorem State.writer_enc (s : State) : s.writer.enc = s.enc := rfl
@[simp] theorem State.writer_sink (s : State) : s.writer.sink = s.sink := rfl
@[simp] theorem State.reader_dec (s : State) : s.reader.dec = s.dec := rfl
@[simp] theorem State.reader_source (s : State) : s.reader.source = s.source := rfl
@[simp] theorem State.reader_out (s : State) : s.reader.out = s.out := rfl
@[simp] theorem State.writer_withWriter (s : State) (w : Writer) : (s.withWriter w).writer = w := rfl
@[simp] theorem State.reader_withReader (s : State) (r : Reader) : (s.withReader r).reader = r := rfl

@[simp] theorem State.withWriter_params (s : State) (w : Writer) :
    (s.withWriter w).params = s.params := rfl
@[simp] theorem State.withWriter_enc (s : State) (w : Writer) :
    (s.withWriter w).enc = w.enc := rfl
@[simp] theorem State.withWriter_encPort (s : State) (w : Writer) :
    (s.withWriter w).encPort = s.encPort := rfl
@[simp] theorem State.withWriter_sink (s : State) (w : Writer) :
    (s.withWriter w).sink = w.sink := rfl
@[simp] theorem State.withWriter_dec (s : State) (w : Writer) :
    (s.withWriter w).dec = s.dec := rfl
@[simp] theorem State.withWriter_decPort (s : State) (w : Writer) :
    (s.withWriter w).decPort = s.decPort := rfl
@[simp] theorem State.withWriter_source (s : State) (w : Writer) :
    (s.withWriter w).source = s.source := rfl
@[simp] theorem State.withWriter_out (s : State) (w : Writer) :
    (s.withWriter w).out = s.out := rfl
@[simp] theorem State.withWriter_pending (s : State) (w : Writer) :
    (s.withWriter w).pending = s.pending := rfl

@[simp] theorem State.withReader_params (s : State) (r : Reader) :
    (s.withReader r).params = s.params := rfl
@[simp] theorem State.withReader_enc (s : State) (r : Reader) :
    (s.withReader r).enc = s.enc := rfl
@[simp] theorem State.withReader_encPort (s : State) (r : Reader) :
    (s.withReader r).encPort = s.encPort := rfl
@[simp] theorem State.withReader_sink (s : State) (r : Reader) :
    (s.withReader r).sink = s.sink := rfl
@[simp] theorem State.withReader_dec (s : State) (r : Reader) :
    (s.withReader r).dec = r.dec := rfl
@[simp] theorem State.withReader_decPort (s : State) (r : Reader) :
    (s.withReader r).decPort = s.decPort := rfl
@[simp] theorem State.withReader_source (s : State) (r : Reader) :
    (s.withReader r).source = r.source := rfl
@[simp] theorem State.withReader_out (s : State) (r : Reader) :
    (s.withReader r).out = r.out := rfl
@[simp] theorem State.withReader_pending (s : State) (r : Reader) :
    (s.withReader r).pending = s.pending := rfl

@[simp] theorem State.withEncResult_params (s : State) (x : EncResult) :
    (s.withEncResult x).params = s.params := rfl
@[simp] theorem State.withEncResult_enc (s : State) (x : EncResult) :
    (s.withEncResult x).enc = s.enc := rfl
@[simp] theorem State.withEncResult_encPort (s : State) (x : EncResult) :
    (s.withEncResult x).encPort = { s.encPort with result := x } := rfl
@[simp] theorem State.withEncResult_sink (s : State) (x : EncResult) :
    (s.withEncResult x).sink = s.sink := rfl
@[simp] theorem State.withEncResult_dec (s : State) (x : EncResult) :
    (s.withEncResult x).dec = s.dec := rfl
@[simp] theorem State.withEncResult_decPort (s : State) (x : EncResult) :
    (s.withEncResult x).decPort = s.decPort := rfl
@[simp] theorem State.withEncResult_source (s : State) (x : EncResult) :
    (s.withEncResult x).source = s.source := rfl
@[simp] theorem State.withEncResult_out (s : State) (x : EncResult) :
    (s.withEncResult x).out = s.out := rfl
@[simp] theorem State.withEncResult_pending (s : State) (x : EncResult) :
    (s.withEncResult x).pending = s.pending := rfl

@[simp] theorem State.withDecResult_params (s : State) (x : DecResult) :
    (s.withDecResult x).params = s.params := rfl
@[simp] theorem State.withDecResult_enc (s : State) (x : DecResult) :
    (s.withDecResult x).enc = s.enc := rfl
@[simp] theorem State.withDecResult_encPort (s : State) (x : DecResult) :
    (s.withDecResult x).encPort = s.encPort := rfl
@[simp] theorem State.withDecResult_sink (s : State) (x : DecResult) :
    (s.withDecResult x).sink = s.sink := rfl
@[simp] theorem State.withDecResult_dec (s : State) (x : DecResult) :
    (s.withDecResult x).dec = s.dec := rfl
@[simp] theorem State.withDecResult_decPort (s : State) (x : DecResult) :
    (s.withDecResult x).decPort = { s.decPort with result := x } := rfl
@[simp] theorem State.withDecResult_source (s : State) (x : DecResult) :
    (s.withDecResult x).source = s.source := rfl
@[simp] theorem State.withDecResult_out (s : State) (x : DecResult) :
    (s.withDecResult x).out = s.out := rfl
@[simp] theorem State.withDecResult_pending (s : State) (x : DecResult) :
    (s.withDecResult x).pending = s.pending := rfl

@[simp] theorem encRefuse_params (r : RefReason) (s : State) :
    (encRefuse r s).params = s.params := rfl
@[simp] theorem encRefuse_enc (r : RefReason) (s : State) :
    (encRefuse r s).enc = s.enc := rfl
@[simp] theorem encRefuse_encPort (r : RefReason) (s : State) :
    (encRefuse r s).encPort = { s.encPort with result := .refused r, marked := firstMark s.encPort.marked r } := rfl
@[simp] theorem encRefuse_sink (r : RefReason) (s : State) :
    (encRefuse r s).sink = s.sink := rfl
@[simp] theorem encRefuse_dec (r : RefReason) (s : State) :
    (encRefuse r s).dec = s.dec := rfl
@[simp] theorem encRefuse_decPort (r : RefReason) (s : State) :
    (encRefuse r s).decPort = s.decPort := rfl
@[simp] theorem encRefuse_source (r : RefReason) (s : State) :
    (encRefuse r s).source = s.source := rfl
@[simp] theorem encRefuse_out (r : RefReason) (s : State) :
    (encRefuse r s).out = s.out := rfl
@[simp] theorem encRefuse_pending (r : RefReason) (s : State) :
    (encRefuse r s).pending = s.pending := rfl

@[simp] theorem decRefuse_params (r : RefReason) (s : State) :
    (decRefuse r s).params = s.params := rfl
@[simp] theorem decRefuse_enc (r : RefReason) (s : State) :
    (decRefuse r s).enc = s.enc := rfl
@[simp] theorem decRefuse_encPort (r : RefReason) (s : State) :
    (decRefuse r s).encPort = s.encPort := rfl
@[simp] theorem decRefuse_sink (r : RefReason) (s : State) :
    (decRefuse r s).sink = s.sink := rfl
@[simp] theorem decRefuse_dec (r : RefReason) (s : State) :
    (decRefuse r s).dec = s.dec := rfl
@[simp] theorem decRefuse_decPort (r : RefReason) (s : State) :
    (decRefuse r s).decPort = { s.decPort with result := .refused r, marked := firstMark s.decPort.marked r } := rfl
@[simp] theorem decRefuse_source (r : RefReason) (s : State) :
    (decRefuse r s).source = s.source := rfl
@[simp] theorem decRefuse_out (r : RefReason) (s : State) :
    (decRefuse r s).out = s.out := rfl
@[simp] theorem decRefuse_pending (r : RefReason) (s : State) :
    (decRefuse r s).pending = s.pending := rfl

@[simp] theorem encRefuseBusy_params (s : State) :
    (encRefuseBusy s).params = s.params := rfl
@[simp] theorem encRefuseBusy_enc (s : State) :
    (encRefuseBusy s).enc = s.enc := rfl
@[simp] theorem encRefuseBusy_encPort (s : State) :
    (encRefuseBusy s).encPort = { s.encPort with marked := firstMark s.encPort.marked .busy } := rfl
@[simp] theorem encRefuseBusy_sink (s : State) :
    (encRefuseBusy s).sink = s.sink := rfl
@[simp] theorem encRefuseBusy_dec (s : State) :
    (encRefuseBusy s).dec = s.dec := rfl
@[simp] theorem encRefuseBusy_decPort (s : State) :
    (encRefuseBusy s).decPort = s.decPort := rfl
@[simp] theorem encRefuseBusy_source (s : State) :
    (encRefuseBusy s).source = s.source := rfl
@[simp] theorem encRefuseBusy_out (s : State) :
    (encRefuseBusy s).out = s.out := rfl
@[simp] theorem encRefuseBusy_pending (s : State) :
    (encRefuseBusy s).pending = s.pending := rfl

@[simp] theorem decRefuseBusy_params (s : State) :
    (decRefuseBusy s).params = s.params := rfl
@[simp] theorem decRefuseBusy_enc (s : State) :
    (decRefuseBusy s).enc = s.enc := rfl
@[simp] theorem decRefuseBusy_encPort (s : State) :
    (decRefuseBusy s).encPort = s.encPort := rfl
@[simp] theorem decRefuseBusy_sink (s : State) :
    (decRefuseBusy s).sink = s.sink := rfl
@[simp] theorem decRefuseBusy_dec (s : State) :
    (decRefuseBusy s).dec = s.dec := rfl
@[simp] theorem decRefuseBusy_decPort (s : State) :
    (decRefuseBusy s).decPort = { s.decPort with marked := firstMark s.decPort.marked .busy } := rfl
@[simp] theorem decRefuseBusy_source (s : State) :
    (decRefuseBusy s).source = s.source := rfl
@[simp] theorem decRefuseBusy_out (s : State) :
    (decRefuseBusy s).out = s.out := rfl
@[simp] theorem decRefuseBusy_pending (s : State) :
    (decRefuseBusy s).pending = s.pending := rfl

theorem firstMark_ne_none (old : Option RefReason) (r : RefReason) : firstMark old r ≠ none := by
  cases old <;> simp [firstMark]

end Sys2Proof.Machine
end

