-- ==== Sys2Proof/Laws/Decoder.lean ====
section
/-! SUPPORT. Laws of the source, of the reader and of the decoder FSM: what BR.NEXTBIT delivers, what a step of
the FSM can do, and what a codeword's bits do to it. -/
namespace Sys2Proof.Machine

/-- A reliable source serves: the first byte of the content, or exhaustion. -/
theorem sourceRead_reliable (p : Params) (k : Source) (h : k.Reliable p) :
    (k.content = [] ∧ ∃ j, sourceRead p k = (.exhausted, j) ∧ j.content = [] ∧ j.Reliable p ∧
      j.trace = k.trace ++ [.exhausted]) ∨
    (∃ b rest j, k.content = b :: rest ∧ sourceRead p k = (.byte b, j) ∧ j.content = rest ∧
      j.Reliable p ∧ j.trace = k.trace ++ [.byte b]) := by
  obtain ⟨content, trace, plan⟩ := k
  have hturn : Source.turn p ⟨content, trace, plan⟩ = .serve := by
    cases plan with
    | nil => rfl
    | cons a rest =>
      rcases h a (by simp) with rfl | ⟨rfl, hp⟩
      · rfl
      · simp [Source.turn, hp]
  have hrest : ∀ c : List Byte, ∀ t, Source.Reliable p ⟨c, t, plan.tail⟩ :=
    fun c t a ha => h a (List.mem_of_mem_tail ha)
  cases content with
  | nil => left; exact ⟨rfl, _, by simp [sourceRead, hturn], rfl, hrest _ _, rfl⟩
  | cons b rest => right; exact ⟨b, rest, _, rfl, by simp [sourceRead, hturn], rfl, hrest _ _, rfl⟩

/-- Taking a bit of the loaded byte delivers the first of its bits and leaves the others. -/
theorem takeLoaded_law (r : Reader) (h : 0 < r.dec.left) :
    ∃ b r1, takeLoaded r = .bit b r1 ∧ r.bits = b :: r1.bits ∧
      r1 = { r with dec := { r.dec with left := r.dec.left - 1 } } := by
  refine ⟨_, _, rfl, ?_, rfl⟩
  obtain ⟨n, hn⟩ : ∃ n, r.dec.left = n + 1 := ⟨r.dec.left - 1, by omega⟩
  simp [Reader.bits, hn, numBits_succ, BitVec.getLsbD]

/-- BR.NEXTBIT on a reliable source (R82): the next bit, if there is one, with nothing but the loaded byte and
the source moved on; EndOfStream otherwise. -/
theorem brNextBit_reliable (p : Params) (r : Reader) (hl : r.dec.left ≤ 8) (he : r.dec.eos = false)
    (hs : r.source.Reliable p) :
    (r.bits = [] ∧ ∃ r1, brNextBit p r = .endOfStream r1 ∧ r1.dec = { r.dec with eos := true } ∧
      r1.out = r.out ∧ r1.source.content = [] ∧ r1.source.Reliable p ∧ r.dec.left = 0) ∨
    (∃ b r1, brNextBit p r = .bit b r1 ∧ r.bits = b :: r1.bits ∧ r1.out = r.out ∧
      r1.dec = { r.dec with cur := r1.dec.cur, left := r1.dec.left } ∧ r1.dec.left ≤ 7 ∧
      r1.source.Reliable p ∧
      ((0 < r.dec.left ∧ r1.source = r.source ∧ r1.dec.left = r.dec.left - 1) ∨
        (r.dec.left = 0 ∧ r1.source.content = r.source.content.drop 1 ∧ r1.dec.left = 7 ∧
          r.source.content.length = r1.source.content.length + 1))) := by
  by_cases h0 : r.dec.left = 0
  · rcases sourceRead_reliable p r.source hs with ⟨hc, j, hj, hjc, hjr, -⟩ | ⟨b, rest, j, hc, hj, hjc, hjr, -⟩
    · left
      refine ⟨by simp [Reader.bits, h0, hc],
        { r with dec := { r.dec with eos := true }, source := j }, ?_, rfl, rfl, hjc, hjr, h0⟩
      rw [brNextBit, if_pos h0, he, hj]
      rfl
    · right
      obtain ⟨c, r1, ht, hb, hr1⟩ := takeLoaded_law
        { r with dec := { r.dec with cur := b, left := 8 }, source := j } (by simp)
      have hbr : brNextBit p r = .bit c r1 := by
        rw [brNextBit, if_pos h0, he, hj]
        exact ht
      refine ⟨c, r1, hbr, ?_, by rw [hr1], by rw [hr1], by rw [hr1]; exact Nat.le_refl 7, ?_, ?_⟩
      · rw [← hb]; simp [Reader.bits, h0, hc, hjc, byteBits]
      · rw [hr1]; exact hjr
      · right; rw [hr1]; simp [h0, hc, hjc]
  · right
    obtain ⟨c, r1, ht, hb, hr1⟩ := takeLoaded_law r (by omega)
    refine ⟨c, r1, by simp [brNextBit, h0, ht], hb, by rw [hr1], by rw [hr1], by rw [hr1]; simp only []; omega,
      by rw [hr1]; exact hs, ?_⟩
    left; rw [hr1]; exact ⟨by omega, rfl, rfl⟩

/-- DEC.STEP neither reads nor writes the reader's registers (R85). -/
def StepResult.withLoaded (x : StepResult) (cur : BitVec 8) (left : Nat) : StepResult :=
  match x with
  | .quiet d => .quiet { d with cur := cur, left := left }
  | .emit v d => .emit v { d with cur := cur, left := left }
  | .raised c d => .raised c { d with cur := cur, left := left }

theorem decStep_withLoaded (p : Params) (b : Bool) (d : Dec) (cur : BitVec 8) (left : Nat) :
    decStep p b { d with cur := cur, left := left } = (decStep p b d).withLoaded cur left := by
  obtain ⟨st, zc, acc, rem, cur0, left0, eos, fault, cause⟩ := d
  cases st <;> simp only [decStep] <;> (try split) <;> (try split) <;> (try split) <;>
    simp_all [StepResult.withLoaded, decRaise]
  split <;> rfl

/-- Everything a step of the FSM can do (R85): the loaded byte, the latch and the count of what the unit
holds of the source stay; the fault is set only with DecOverrange, from CountingZeros. -/
theorem decStep_cases (p : Params) (b : Bool) (d : Dec) :
    (∃ d1, decStep p b d = .quiet d1 ∧ d1.fault = d.fault ∧ d1.cause = d.cause ∧ d1.eos = d.eos ∧
      d1.left = d.left ∧ d1.cur = d.cur) ∨
    (∃ v d1, decStep p b d = .emit v d1 ∧ d1.st = .countingZeros ∧ d1.zc = 0 ∧ d1.fault = d.fault ∧
      d1.cause = d.cause ∧ d1.eos = d.eos ∧ d1.left = d.left ∧ d1.cur = d.cur) ∨
    (decStep p b d = .raised .decOverrange (decRaise .decOverrange d) ∧ d.st = .countingZeros ∧
      p.nbitsMax < d.zc ∧ b = true) := by
  obtain ⟨st, zc, acc, rem, cur, left, eos, fault, cause⟩ := d
  cases st
  · cases b
    · left; exact ⟨_, rfl, rfl, rfl, rfl, rfl, rfl⟩
    · by_cases h0 : zc = 0
      · right; left
        exact ⟨0, _, by simp only [decStep]; rw [if_neg (by simp), if_pos h0], rfl, h0, rfl, rfl, rfl,
          rfl, rfl⟩
      · by_cases h1 : p.nbitsMax < zc
        · right; right; exact ⟨by simp [decStep, h0, h1], rfl, h1, rfl⟩
        · left; refine ⟨⟨.shiftingBits, zc, 1, zc, cur, left, eos, fault, cause⟩, ?_, rfl, rfl, rfl, rfl, rfl⟩
          simp only [decStep]
          rw [if_neg (by simp), if_neg h0, if_neg h1]
  · left
    by_cases h : rem - 1 = 0
    · refine ⟨⟨.readingSign, zc, 2 * acc + b.toNat - 1, 0, cur, left, eos, fault, cause⟩, ?_, rfl,
        rfl, rfl, rfl, rfl⟩
      simp only [decStep]
      rw [if_pos h]
    · refine ⟨⟨.shiftingBits, zc, 2 * acc + b.toNat, rem - 1, cur, left, eos, fault, cause⟩, ?_, rfl,
        rfl, rfl, rfl, rfl⟩
      simp only [decStep]
      rw [if_neg h]
  · right; left; exact ⟨_, _, rfl, rfl, rfl, rfl, rfl, rfl, rfl, rfl⟩

/-- The FSM over bits that complete no value. -/
def quietRun (p : Params) (bits : BitString) (d : Dec) : Option Dec :=
  match bits with
  | [] => some d
  | b :: rest =>
    match decStep p b d with
    | .quiet d1 => quietRun p rest d1
    | .emit _ _ | .raised _ _ => none

theorem quietRun_append (p : Params) (xs ys : BitString) (d d1 : Dec) (h : quietRun p xs d = some d1) :
    quietRun p (xs ++ ys) d = quietRun p ys d1 := by
  induction xs generalizing d with
  | nil => simp only [quietRun, Option.some.injEq] at h; rw [← h]; rfl
  | cons b xs ih =>
    simp only [quietRun, List.cons_append] at h ⊢
    cases hs : decStep p b d <;> simp only [hs] at h ⊢
    · exact ih _ h
    all_goals cases h

/-- Zeros only count (R86). -/
theorem quietRun_zeros (p : Params) (k : Nat) (d : Dec) (hst : d.st = .countingZeros) :
    quietRun p (List.replicate k false) d = some { d with zc := d.zc + k } := by
  induction k generalizing d with
  | zero => rfl
  | succ k ih =>
    simp only [List.replicate_succ, quietRun, decStep, hst, if_true]
    rw [ih _ rfl]
    simp only [Option.some.injEq, Dec.mk.injEq, true_and, and_true]
    omega

/-- The magnitude bits shift in, and after the last of them the bias is taken off (R87). -/
theorem quietRun_field (p : Params) (bits : BitString) (d : Dec) (hst : d.st = .shiftingBits)
    (hrem : d.rem = bits.length) (hne : bits ≠ []) :
    quietRun p bits d =
      some { d with st := .readingSign, rem := 0,
                    acc := d.acc * 2 ^ bits.length + bitsNat bits - 1 } := by
  induction bits generalizing d with
  | nil => exact absurd rfl hne
  | cons b bits ih =>
    simp only [quietRun, decStep, hst]
    by_cases hb : bits = []
    · subst hb
      simp [hrem, quietRun, bitsNat_cons, Nat.mul_comm]
    · have hlen : 0 < bits.length := List.length_pos_iff.mpr hb
      rw [if_neg (by simp [hrem]; omega)]
      simp only []
      rw [ih _ rfl (by simp [hrem]) hb]
      simp only [bitsNat_cons, List.length_cons, pow_succ, Option.some.injEq, Dec.mk.injEq, true_and,
        and_true]
      congr 1
      ring

/-- A codeword without its sign bit completes no value and leaves its magnitude waiting for the sign
(R86, R87). -/
theorem quietRun_codeword (p : Params) (k m : Nat) (d : Dec) (hk : 1 ≤ k) (hmax : k ≤ p.nbitsMax)
    (hm : m < 2 ^ k) (hst : d.st = .countingZeros) (hz : d.zc = 0) :
    quietRun p (List.replicate k false ++ true :: numBits k m) d =
      some { d with st := .readingSign, zc := k, rem := 0, acc := 2 ^ k + m - 1 } := by
  rw [quietRun_append p _ _ d _ (quietRun_zeros p k d hst)]
  simp only [quietRun, decStep, hst, hz, Nat.zero_add]
  rw [if_neg (by simp), if_neg (by omega), if_neg (by omega)]
  simp only []
  rw [quietRun_field p (numBits k m) _ rfl (by simp) (by
    intro h; have := congrArg List.length h; simp at this; omega)]
  simp [bitsNat_numBits, low, Nat.mod_eq_of_lt hm]

/-- Bits that complete no value pass through feedBits. -/
theorem feedBits_quiet (p : Params) (xs ys : BitString) (n : Nat) (r : Reader) (d : Dec)
    (h : quietRun p xs r.dec = some d) :
    feedBits p (xs ++ ys) n r = feedBits p ys n { r with dec := d } := by
  induction xs generalizing r with
  | nil => simp only [quietRun, Option.some.injEq] at h; subst h; rfl
  | cons b xs ih =>
    simp only [quietRun, List.cons_append, feedBits, feedBit] at h ⊢
    cases hs : decStep p b r.dec <;> simp only [hs] at h ⊢
    · exact ih { r with dec := _ } h
    all_goals cases h

end Sys2Proof.Machine
end

