-- ==== Sys2Proof/Laws/PerInstr.lean ====
section
/-! SUPPORT. Per instruction: what the encoder writes is selected by the instruction's row of the opcode table
(spec/30_encoding.md R63, R66). -/
namespace Sys2Proof.Laws.TableRow

/-- The wire of the instruction has the width of its row, and its number under the row's mask is the row's
match. -/
def Statement (i : Instr) : Prop :=
  (encode Params.default i).width = i.row.length ∧
  (encode Params.default i).number &&& i.row.maskBits = i.row.matchBits

theorem codewordBits_length (k m : Nat) (neg : Bool) (hk : 1 ≤ k) :
    (codewordBits k m neg).length = 2 * k + 2 := by
  rw [codewordBits, if_neg (by omega)]
  simp
  omega

/-- A codeword read as one number (R54). -/
theorem bitsNat_codewordBits (k m : Nat) (neg : Bool) (hk : 1 ≤ k) :
    bitsNat (codewordBits k m neg) = 2 ^ (k + 1) + (2 * low m k + neg.toNat) := by
  rw [codewordBits, if_neg (by omega), bitsNat_append, bitsNat_replicate_false, bitsNat_cons,
    bitsNat_append_bit, bitsNat_numBits]
  simp

/-- The mask of class `k` finds the separator, whatever the field and the sign are. -/
theorem mask_finds_separator (k lo : Nat) (hlo : lo < 2 ^ (k + 1)) :
    (2 ^ (k + 1) + lo) &&& ((2 ^ (k + 1) - 1) <<< (k + 1)) = 1 <<< (k + 1) := by
  apply Nat.eq_of_testBit_eq
  intro i
  rw [Nat.testBit_and, Nat.testBit_shiftLeft, Nat.testBit_shiftLeft]
  by_cases hi : k + 1 ≤ i
  · have hx : (2 ^ (k + 1) + lo).testBit i = Nat.testBit 1 (i - (k + 1)) := by
      have hdiv : (2 ^ (k + 1) + lo) >>> (k + 1) = 1 := by
        rw [Nat.shiftRight_eq_div_pow, Nat.add_div_left _ (Nat.two_pow_pos _), Nat.div_eq_of_lt hlo]
      have h := Nat.testBit_shiftRight (i := k + 1) (j := i - (k + 1)) (2 ^ (k + 1) + lo)
      rw [hdiv, show k + 1 + (i - (k + 1)) = i by omega] at h
      exact h.symm
    rw [hx, Nat.testBit_two_pow_sub_one]
    simp only [hi, decide_true, Bool.true_and]
    cases i - (k + 1) with
    | zero => simp
    | succ j => simp [Nat.testBit_succ]
  · simp [hi]

theorem codeword (k m : Nat) (neg : Bool) (hk : 1 ≤ k) :
    bitsNat (codewordBits k m neg) &&& (codewordRow k).maskBits = (codewordRow k).matchBits := by
  rw [bitsNat_codewordBits k m neg hk, codewordRow, if_neg (by omega)]
  refine mask_finds_separator k _ ?_
  have h : low m k < 2 ^ k := Nat.mod_lt _ (Nat.two_pow_pos k)
  have hb : neg.toNat ≤ 1 := Bool.toNat_le neg
  rw [pow_succ]
  omega

theorem class_statement (k m : Nat) (neg : Bool) (hk : 1 ≤ k) :
    (Wire.codeword (codewordBits k m neg)).width = (codewordRow k).length ∧
    (Wire.codeword (codewordBits k m neg)).number &&& (codewordRow k).maskBits =
      (codewordRow k).matchBits := by
  refine ⟨?_, codeword k m neg hk⟩
  rw [codewordRow, if_neg (by omega)]
  exact codewordBits_length k m neg hk

theorem encNop : Statement .encNop := ⟨by decide, by decide⟩
theorem encPut (item : Int) : Statement (.encPut item) :=
  ⟨rfl, show 1 &&& 3 = 1 by decide⟩
theorem encClose : Statement .encClose := ⟨by decide, by decide⟩
theorem encRst : Statement .encRst := ⟨by decide, by decide⟩
theorem decNop : Statement .decNop := ⟨by decide, by decide⟩
theorem decRead (cap : Nat) : Statement (.decRead cap) :=
  ⟨rfl, show 1 &&& 3 = 1 by decide⟩
theorem decRst : Statement .decRst := ⟨by decide, by decide⟩
theorem cwK0 : Statement .cwK0 := ⟨by decide, by decide⟩
theorem cwK1 (m : BitVec 1) (neg : Bool) : Statement (.cwK1 m neg) :=
  class_statement 1 m.toNat neg (by decide)
theorem cwK2 (m : BitVec 2) (neg : Bool) : Statement (.cwK2 m neg) :=
  class_statement 2 m.toNat neg (by decide)
theorem cwK3 (m : BitVec 3) (neg : Bool) : Statement (.cwK3 m neg) :=
  class_statement 3 m.toNat neg (by decide)
theorem cwK4 (m : BitVec 4) (neg : Bool) : Statement (.cwK4 m neg) :=
  class_statement 4 m.toNat neg (by decide)
theorem cwK5 (m : BitVec 5) (neg : Bool) : Statement (.cwK5 m neg) :=
  class_statement 5 m.toNat neg (by decide)
theorem cwK6 (m : BitVec 6) (neg : Bool) : Statement (.cwK6 m neg) :=
  class_statement 6 m.toNat neg (by decide)
theorem cwK7 (m : BitVec 7) (neg : Bool) : Statement (.cwK7 m neg) :=
  class_statement 7 m.toNat neg (by decide)
theorem cwK8 (m : BitVec 8) (neg : Bool) : Statement (.cwK8 m neg) :=
  class_statement 8 m.toNat neg (by decide)
theorem cwK9 (m : BitVec 9) (neg : Bool) : Statement (.cwK9 m neg) :=
  class_statement 9 m.toNat neg (by decide)
theorem cwK10 (m : BitVec 10) (neg : Bool) : Statement (.cwK10 m neg) :=
  class_statement 10 m.toNat neg (by decide)
theorem cwK11 (m : BitVec 11) (neg : Bool) : Statement (.cwK11 m neg) :=
  class_statement 11 m.toNat neg (by decide)
theorem cwK12 (m : BitVec 12) (neg : Bool) : Statement (.cwK12 m neg) :=
  class_statement 12 m.toNat neg (by decide)
theorem cwK13 (m : BitVec 13) (neg : Bool) : Statement (.cwK13 m neg) :=
  class_statement 13 m.toNat neg (by decide)
theorem cwK14 (m : BitVec 14) (neg : Bool) : Statement (.cwK14 m neg) :=
  class_statement 14 m.toNat neg (by decide)
theorem cwK15 (m : BitVec 15) (neg : Bool) : Statement (.cwK15 m neg) :=
  class_statement 15 m.toNat neg (by decide)
theorem cwK16 (m : BitVec 16) (neg : Bool) : Statement (.cwK16 m neg) :=
  class_statement 16 m.toNat neg (by decide)
theorem cwK17 (m : BitVec 17) (neg : Bool) : Statement (.cwK17 m neg) :=
  class_statement 17 m.toNat neg (by decide)
theorem cwK18 (m : BitVec 18) (neg : Bool) : Statement (.cwK18 m neg) :=
  class_statement 18 m.toNat neg (by decide)
theorem cwK19 (m : BitVec 19) (neg : Bool) : Statement (.cwK19 m neg) :=
  class_statement 19 m.toNat neg (by decide)
theorem cwK20 (m : BitVec 20) (neg : Bool) : Statement (.cwK20 m neg) :=
  class_statement 20 m.toNat neg (by decide)
theorem cwK21 (m : BitVec 21) (neg : Bool) : Statement (.cwK21 m neg) :=
  class_statement 21 m.toNat neg (by decide)
theorem cwK22 (m : BitVec 22) (neg : Bool) : Statement (.cwK22 m neg) :=
  class_statement 22 m.toNat neg (by decide)
theorem cwK23 (m : BitVec 23) (neg : Bool) : Statement (.cwK23 m neg) :=
  class_statement 23 m.toNat neg (by decide)
theorem cwK24 (m : BitVec 24) (neg : Bool) : Statement (.cwK24 m neg) :=
  class_statement 24 m.toNat neg (by decide)
theorem cwK25 (m : BitVec 25) (neg : Bool) : Statement (.cwK25 m neg) :=
  class_statement 25 m.toNat neg (by decide)
theorem cwK26 (m : BitVec 26) (neg : Bool) : Statement (.cwK26 m neg) :=
  class_statement 26 m.toNat neg (by decide)
theorem cwK27 (m : BitVec 27) (neg : Bool) : Statement (.cwK27 m neg) :=
  class_statement 27 m.toNat neg (by decide)
theorem cwK28 (m : BitVec 28) (neg : Bool) : Statement (.cwK28 m neg) :=
  class_statement 28 m.toNat neg (by decide)
theorem cwK29 (m : BitVec 29) (neg : Bool) : Statement (.cwK29 m neg) :=
  class_statement 29 m.toNat neg (by decide)
theorem cwK30 (m : BitVec 30) (neg : Bool) : Statement (.cwK30 m neg) :=
  class_statement 30 m.toNat neg (by decide)

end Sys2Proof.Laws.TableRow
end

