-- ==== Sys2Proof/Laws/Pseudo.lean ====
section
/-! SUPPORT. Laws of the pseudo-operations: how answers go on, and what issuing one operation can do. -/
namespace Sys2Proof.Machine

@[simp] theorem Answer.map_ok {α β : Type} (f : α → β) (a : α) : (Answer.ok a).map f = .ok (f a) := rfl
@[simp] theorem Answer.map_faulted {α β : Type} (f : α → β) (c : OutcomeCode) (a : α) :
    (Answer.faulted c a).map f = .faulted c (f a) := rfl
@[simp] theorem Answer.map_refused {α β : Type} (f : α → β) (r : RefReason) :
    (Answer.refused r : Answer α).map f = .refused r := rfl
@[simp] theorem Answer.andThen_ok {α : Type} (a : α) (f : α → Answer α) : (Answer.ok a).andThen f = f a := rfl
@[simp] theorem Answer.andThen_faulted {α : Type} (c : OutcomeCode) (a : α) (f : α → Answer α) :
    (Answer.faulted c a).andThen f = .faulted c a := rfl
@[simp] theorem Answer.andThen_refused {α : Type} (r : RefReason) (f : α → Answer α) :
    (Answer.refused r : Answer α).andThen f = .refused r := rfl

/-- A ready unit ENC whose operation returns answers the state after it. -/
theorem issueEnc_returned (i : Instr) (s t : State) (hb : s.encPort.busy = false)
    (h : exec i s = .next t) (hr : t.encPort.result = .returned) : issueEnc i s = .ok t := by
  simp [issueEnc, hb, h, encReport, hr]

/-- A ready unit DEC whose DEC.READ returns answers the state after it. -/
theorem issueDec_read (i : Instr) (s t : State) (n : Nat) (eos : Bool) (hb : s.decPort.busy = false)
    (h : exec i s = .next t) (hr : t.decPort.result = .read n eos) : issueDec i s = .ok t := by
  simp [issueDec, hb, h, decReport, hr]

/-- A unit DEC whose operation has not returned refuses, whatever is issued. -/
theorem issueDec_busy (i : Instr) (s : State) (hb : s.decPort.busy = true) :
    issueDec i s = .refused .busy := by
  simp [issueDec, hb]

/-- A unit ENC whose operation has not returned refuses, whatever is issued. -/
theorem issueEnc_busy (i : Instr) (s : State) (hb : s.encPort.busy = true) :
    issueEnc i s = .refused .busy := by
  simp [issueEnc, hb]

theorem issueAllEnc_append (xs ys : List Instr) (s : State) :
    issueAllEnc (xs ++ ys) s = (issueAllEnc xs s).andThen (issueAllEnc ys) := by
  induction xs generalizing s with
  | nil => rfl
  | cons x xs ih =>
    simp only [List.cons_append, issueAllEnc]
    cases issueEnc x s <;> simp [Answer.andThen, ih]

/-- decode and DELTA.DEC begin, on a ready unit, in the state that DEC.RST leaves. -/
theorem startDecoding_ready (bytes : List Byte) (s : State) (hb : s.decPort.busy = false) :
    ∃ t, exec .decRst (setSource bytes s) = .next t ∧ startDecoding bytes s = .ok t := by
  refine ⟨_, rfl, ?_⟩
  simp [startDecoding, issueDec, setSource, hb, exec, execDecRst, decReport]

end Sys2Proof.Machine
end

