-- ==== Sys2Proof/Laws/Writer.lean ====
section
/-! SUPPORT. Laws of the sink and of the writer: what one call of the sink can do, and what one appended bit
does. -/
namespace Sys2Proof.Machine

/-- Everything a call of the sink can do (R74, R75, R46): the answer `Ok` with the entry appended, or another
answer with the trace as it was; `past` stays, one planned answer is used up. -/
theorem sinkCall_cases (p : Params) (x : SinkItem) (k : Sink) :
    (sinkCall p x k).2.past = k.past ∧ (sinkCall p x k).2.plan = k.plan.tail ∧
    (((sinkCall p x k).1 = .ok ∧ (sinkCall p x k).2.trace = k.trace ++ [x]) ∨
      ((sinkCall p x k).1 = .fail ∧ p.hasIoErr = true ∧ (sinkCall p x k).2.trace = k.trace) ∨
      ((sinkCall p x k).1 = .never ∧ SinkAnswer.never ∈ k.plan ∧
        (sinkCall p x k).2.trace = k.trace)) := by
  obtain ⟨trace, past, plan⟩ := k
  cases plan with
  | nil => simp [sinkCall, Sink.answer]
  | cons a rest => cases a <;> cases h : p.hasIoErr <;> simp [sinkCall, Sink.answer, h]

/-- A reliable sink takes every entry and stays reliable. -/
theorem sinkCall_reliable (p : Params) (x : SinkItem) (k : Sink) (h : k.Reliable p) :
    (sinkCall p x k).1 = .ok ∧ (sinkCall p x k).2.Reliable p ∧
      (sinkCall p x k).2.trace = k.trace ++ [x] ∧ (sinkCall p x k).2.past = k.past := by
  obtain ⟨trace, past, plan⟩ := k
  cases plan with
  | nil => simp [sinkCall, Sink.answer, Sink.Reliable]
  | cons a rest =>
    have ha := h a (by simp)
    have hr : ∀ b ∈ rest, b = SinkAnswer.ok ∨ (b = .fail ∧ p.hasIoErr = false) :=
      fun b hb => h b (by simp [hb])
    rcases ha with rfl | ⟨rfl, hp⟩
    · exact ⟨rfl, hr, rfl, rfl⟩
    · simp only [sinkCall, Sink.answer, List.headD_cons, hp]
      exact ⟨rfl, hr, rfl, rfl⟩

@[simp] theorem andThen_ok (w : Writer) (f : Writer → BwResult) :
    (BwResult.ok w).andThen f = f w := rfl

@[simp] theorem andThen_raised (c : OutcomeCode) (w : Writer) (f : Writer → BwResult) :
    (BwResult.raised c w).andThen f = .raised c w := rfl

@[simp] theorem andThen_blocked (w : Writer) (f : Writer → BwResult) :
    (BwResult.blocked w).andThen f = .blocked w := rfl

@[simp] theorem andThen_refused (r : RefReason) (f : Writer → BwResult) :
    (BwResult.refused r).andThen f = .refused r := rfl

theorem andThen_assoc (x : BwResult) (f g : Writer → BwResult) :
    (x.andThen f).andThen g = x.andThen fun w => (f w).andThen g := by
  cases x <;> rfl

theorem andThen_eq_ok (x : BwResult) (f : Writer → BwResult) (w : Writer) :
    x.andThen f = .ok w ↔ ∃ v, x = .ok v ∧ f v = .ok w := by
  cases x <;> simp

@[simp] theorem bwBits_nil (p : Params) (w : Writer) : bwBits p [] w = .ok w := rfl

theorem bwBits_cons (p : Params) (b : Bool) (bits : BitString) (w : Writer) :
    bwBits p (b :: bits) w = (bwBit p b w).andThen (bwBits p bits) := rfl

/-- How the bits are grouped into appends does not matter (R80). -/
theorem bwBits_append (p : Params) (xs ys : BitString) (w : Writer) :
    bwBits p (xs ++ ys) w = (bwBits p xs w).andThen (bwBits p ys) := by
  induction xs generalizing w with
  | nil => rfl
  | cons b xs ih =>
    rw [List.cons_append, bwBits_cons, bwBits_cons, andThen_assoc]
    congr 1
    funext v
    exact ih v

theorem bwAppend_eq_bits (p : Params) (pattern count : Nat) (w : Writer) (h : count ≤ p.PW) :
    bwAppend p pattern count w = bwBits p (numBits count pattern) w := by
  simp [bwAppend, Nat.not_lt.mpr h]

/-- The four appends of ENC.PUT append the item's codeword, whatever the sink answers (R68). -/
theorem putBits_eq_cw (p : Params) (item : Int) (w : Writer) (h1 : 1 ≤ p.PW)
    (hk : nbits item ≤ p.PW) : putBits p item w = bwBits p (cw item) w := by
  unfold putBits cw
  split
  · rw [bwAppend_eq_bits p 1 1 w h1]; rfl
  · have hs : numBits 1 (signBit item).toNat = [signBit item] := by
      cases signBit item <;> decide
    simp only [bwAppend_eq_bits p _ _ _ hk, bwAppend_eq_bits p _ _ _ h1, numBits_zero_value, hs,
      numBits_low]
    rw [bwBits_append]
    congr 1
    funext w1
    change _ = bwBits p ([true] ++ (numBits (nbits item) (biased item) ++ [signBit item])) w1
    rw [bwBits_append]
    congr 1
    funext w2
    rw [bwBits_append]

/-- ORing a bit into the first free place of a byte whose free places are zero, at each of the eight
places. -/
theorem acc_or_bit (acc : BitVec 8) (b : Bool) (pos : Nat) (hpos : pos ≤ 7)
    (hlow : low acc.toNat (8 - pos) = 0) :
    (byteBits (acc ||| bitAt b (7 - pos))).take (pos + 1) = (byteBits acc).take pos ++ [b] ∧
    low (acc ||| bitAt b (7 - pos)).toNat (7 - pos) = 0 := by
  revert acc b
  have h : pos = 0 ∨ pos = 1 ∨ pos = 2 ∨ pos = 3 ∨ pos = 4 ∨ pos = 5 ∨ pos = 6 ∨ pos = 7 := by omega
  rcases h with rfl | rfl | rfl | rfl | rfl | rfl | rfl | rfl <;> decide +kernel

/-- Everything appending one bit can do, from an open writer (R76): the bit goes in, or it fills the byte and
the byte is written, or that write fails or is never answered. -/
theorem bwBit_cases (p : Params) (b : Bool) (w : Writer) (hpos : w.enc.pos ≤ 7) :
    (w.enc.pos < 7 ∧ bwBit p b w =
      .ok { w with enc := { w.enc with acc := w.enc.acc ||| bitAt b (7 - w.enc.pos),
                                       pos := w.enc.pos + 1 } }) ∨
    (w.enc.pos = 7 ∧ bwBit p b w =
      sinkDone { w.enc with acc := w.enc.acc ||| bitAt b 0, pos := 8 }
        (sinkCall p (.byte (w.enc.acc ||| bitAt b 0)) w.sink)
        (fun k => .ok { enc := { w.enc with acc := 0, pos := 0 }, sink := k })) := by
  rcases Nat.lt_or_ge w.enc.pos 7 with h | h
  · left
    refine ⟨h, ?_⟩
    simp only [bwBit]
    rw [if_neg (by omega)]
  · right
    have h7 : w.enc.pos = 7 := by omega
    refine ⟨h7, ?_⟩
    simp [bwBit, h7, sinkWrite]

/-- The writer's law for one bit (R76, R80): an open writer with a reliable sink takes the bit, stays open,
and spells it after what it spelt before. -/
theorem bwBit_law (p : Params) (b : Bool) (w : Writer) (ho : w.Open) (hr : w.sink.Reliable p) :
    ∃ w1, bwBit p b w = .ok w1 ∧ w1.Open ∧ w1.sink.Reliable p ∧ w1.bits = w.bits ++ [b] ∧
      (∃ bytes : List Byte, w1.sink.trace = w.sink.trace ++ bytes.map SinkItem.byte ∧
        8 * bytes.length + w1.enc.pos = w.enc.pos + 1) ∧
      w1.sink.past = w.sink.past ∧ w1.enc.closed = w.enc.closed ∧ w1.enc.fault = w.enc.fault ∧
      w1.enc.cause = w.enc.cause := by
  obtain ⟨hpos, hlow⟩ := ho
  obtain ⟨hbits, hlow1⟩ := acc_or_bit w.enc.acc b w.enc.pos hpos hlow
  rcases bwBit_cases p b w hpos with ⟨hlt, heq⟩ | ⟨h7, heq⟩
  · refine ⟨_, heq, ⟨by simp; omega, ?_⟩, hr, ?_, ⟨[], by simp, by simp⟩, rfl, rfl, rfl, rfl⟩
    · simpa [show 8 - (w.enc.pos + 1) = 7 - w.enc.pos by omega] using hlow1
    · simp [Writer.bits, hbits]
  · obtain ⟨hans, hrel, htr, hpast⟩ :=
      sinkCall_reliable p (.byte (w.enc.acc ||| bitAt b 0)) w.sink hr
    rw [heq, sinkDone, hans]
    refine ⟨_, rfl, ⟨by simp, by simp [low]⟩, hrel, ?_, ⟨[w.enc.acc ||| bitAt b 0], ?_, ?_⟩, hpast,
      rfl, rfl, rfl⟩
    · have h8 : (byteBits (w.enc.acc ||| bitAt b 0)).take 8 = byteBits (w.enc.acc ||| bitAt b 0) :=
        List.take_of_length_le (by simp)
      rw [h7] at hbits
      simp only [Nat.sub_self, Nat.reduceAdd, h8] at hbits
      simp [Writer.bits, htr, sinkBytes, hbits, h7]
    · simpa using htr
    · simp [h7]

end Sys2Proof.Machine
end

