-- ==== Sys2Proof/Tests/Slice0.lean ====
section
/-! SUPPORT. Tests: ill-formed operands are refused, words written out from the spec's encodings decode to
what they stand for, single steps give the spec's vectors (spec/95_test_vectors.md), and for every statement
with hypotheses a concrete state and operands that meet them. -/

open Sys2Proof Sys2Proof.Machine

/-! ### Helpers -/

/-- The machine after reset, with this pending byte. -/
def Tests.encAt (acc : BitVec 8) (pos : Nat) : State :=
  { State.reset with enc := { Enc.reset with acc := acc, pos := pos } }

/-- The machine after DEC.RST on this source content. -/
def Tests.decOn (content : List Byte) : State :=
  { State.reset with source := { content := content, trace := [], plan := [] } }

/-- The machine after reset, with this DEC unit. -/
def Tests.decIs (d : Dec) : State := { State.reset with dec := d }

/-- A block whose transports can fail. -/
def Tests.failing : Params := { Params.default with hasIoErr := true }

/-- The machine after reset, with these lines still to come. -/
def Tests.lines (pending : List HostLine) : State := { State.reset with pending := pending }

/-- A unit ENC that is closed. -/
def Tests.closed : State := { State.reset with enc := { Enc.reset with closed := true } }

/-- A unit ENC that is faulted, and a unit DEC that is faulted. -/
def Tests.faulted : State :=
  { State.reset with
    enc := { Enc.reset with fault := true, cause := .ioFailSink }
    dec := { Dec.reset with fault := true, cause := .decOverrange } }

/-- Both units wait for a transport call that is never answered. -/
def Tests.waiting (pending : List HostLine) : State :=
  { State.reset with
    encPort := { busy := true, result := .waiting, marked := none }
    decPort := { busy := true, result := .waiting, marked := none }
    pending := pending }

/-- Unit DEC waits for a transport call that is never answered. -/
def Tests.decWaiting : State :=
  { State.reset with decPort := { busy := true, result := .waiting, marked := none } }

/-! ### Well-formedness (spec/00_scope.md R8) -/

theorem test_wellFormed_put_top : (Instr.encPut 2147483647).wellFormed = true := by decide
theorem test_illFormed_put_above : (Instr.encPut 2147483648).wellFormed = false := by decide
theorem test_wellFormed_put_bottom : (Instr.encPut (-2147483648)).wellFormed = true := by decide
theorem test_illFormed_put_below : (Instr.encPut (-2147483649)).wellFormed = false := by decide
theorem test_wellFormed_read_top : (Instr.decRead 4294967295).wellFormed = true := by decide
theorem test_illFormed_read_above : (Instr.decRead 4294967296).wellFormed = false := by decide

/-! ### Decoding: the command ports (spec/30_encoding.md R63; spec/95_test_vectors.md P2, P5, P6) -/

theorem test_decode_encNop : decode Params.default (.encCmd 0b00 0) = .ok (.encNop, []) := by rfl
theorem test_decode_encPut :
    decode Params.default (.encCmd 0b01 0x80000000) = .ok (.encPut (-2147483648), []) := by rfl
theorem test_decode_encClose : decode Params.default (.encCmd 0b10 0) = .ok (.encClose, []) := by rfl
theorem test_decode_encRst : decode Params.default (.encCmd 0b11 0) = .ok (.encRst, []) := by rfl
theorem test_decode_decNop : decode Params.default (.decCmd 0b00 0) = .ok (.decNop, []) := by rfl
theorem test_decode_decRead :
    decode Params.default (.decCmd 0b01 0x00000005) = .ok (.decRead 5, []) := by rfl
theorem test_decode_reserved :
    decode Params.default (.decCmd 0b10 0) = .error .reservedCmd := by rfl
theorem test_decode_decRst : decode Params.default (.decCmd 0b11 0) = .ok (.decRst, []) := by rfl

/-! ### Decoding: one word of each codeword class, written out from the patterns of spec/30_encoding.md R53,
and what is no codeword (R60) -/

theorem test_decode_cwK0 : decodeCodeword (numBits 1 0b1) = .ok (.cwK0, []) := by rfl
theorem test_decode_cwK1 :
    decodeCodeword (numBits 4 0b0101) =
      .ok (.cwK1 0b0 true, []) := by rfl
theorem test_decode_cwK2 :
    decodeCodeword (numBits 6 0b001100) =
      .ok (.cwK2 0b10 false, []) := by rfl
theorem test_decode_cwK3 :
    decodeCodeword (numBits 8 0b00011101) =
      .ok (.cwK3 0b110 true, []) := by rfl
theorem test_decode_cwK4 :
    decodeCodeword (numBits 10 0b0000111000) =
      .ok (.cwK4 0b1100 false, []) := by rfl
theorem test_decode_cwK5 :
    decodeCodeword (numBits 12 0b000001110001) =
      .ok (.cwK5 0b11000 true, []) := by rfl
theorem test_decode_cwK6 :
    decodeCodeword (numBits 14 0b00000011100000) =
      .ok (.cwK6 0b110000 false, []) := by rfl
theorem test_decode_cwK7 :
    decodeCodeword (numBits 16 0b0000000111000001) =
      .ok (.cwK7 0b1100000 true, []) := by rfl
theorem test_decode_cwK8 :
    decodeCodeword (numBits 18 0b000000001110000000) =
      .ok (.cwK8 0b11000000 false, []) := by rfl
theorem test_decode_cwK9 :
    decodeCodeword (numBits 20 0b00000000011100000001) =
      .ok (.cwK9 0b110000000 true, []) := by rfl
theorem test_decode_cwK10 :
    decodeCodeword (numBits 22 0b0000000000111000000000) =
      .ok (.cwK10 0b1100000000 false, []) := by rfl
theorem test_decode_cwK11 :
    decodeCodeword (numBits 24 0b000000000001110000000001) =
      .ok (.cwK11 0b11000000000 true, []) := by rfl
theorem test_decode_cwK12 :
    decodeCodeword (numBits 26 0b00000000000011100000000000) =
      .ok (.cwK12 0b110000000000 false, []) := by rfl
theorem test_decode_cwK13 :
    decodeCodeword (numBits 28 0b0000000000000111000000000001) =
      .ok (.cwK13 0b1100000000000 true, []) := by rfl
theorem test_decode_cwK14 :
    decodeCodeword (numBits 30 0b000000000000001110000000000000) =
      .ok (.cwK14 0b11000000000000 false, []) := by rfl
theorem test_decode_cwK15 :
    decodeCodeword (numBits 32 0b00000000000000011100000000000001) =
      .ok (.cwK15 0b110000000000000 true, []) := by rfl
theorem test_decode_cwK16 :
    decodeCodeword (numBits 34 0b0000000000000000111000000000000000) =
      .ok (.cwK16 0b1100000000000000 false, []) := by rfl
theorem test_decode_cwK17 :
    decodeCodeword (numBits 36 0b000000000000000001110000000000000001) =
      .ok (.cwK17 0b11000000000000000 true, []) := by rfl
theorem test_decode_cwK18 :
    decodeCodeword (numBits 38 0b00000000000000000011100000000000000000) =
      .ok (.cwK18 0b110000000000000000 false, []) := by rfl
theorem test_decode_cwK19 :
    decodeCodeword (numBits 40 0b0000000000000000000111000000000000000001) =
      .ok (.cwK19 0b1100000000000000000 true, []) := by rfl
theorem test_decode_cwK20 :
    decodeCodeword (numBits 42 0b000000000000000000001110000000000000000000) =
      .ok (.cwK20 0b11000000000000000000 false, []) := by rfl
theorem test_decode_cwK21 :
    decodeCodeword (numBits 44 0b00000000000000000000011100000000000000000001) =
      .ok (.cwK21 0b110000000000000000000 true, []) := by rfl
theorem test_decode_cwK22 :
    decodeCodeword (numBits 46 0b0000000000000000000000111000000000000000000000) =
      .ok (.cwK22 0b1100000000000000000000 false, []) := by rfl
theorem test_decode_cwK23 :
    decodeCodeword (numBits 48 0b000000000000000000000001110000000000000000000001) =
      .ok (.cwK23 0b11000000000000000000000 true, []) := by rfl
theorem test_decode_cwK24 :
    decodeCodeword (numBits 50 0b00000000000000000000000011100000000000000000000000) =
      .ok (.cwK24 0b110000000000000000000000 false, []) := by rfl
theorem test_decode_cwK25 :
    decodeCodeword (numBits 52 0b0000000000000000000000000111000000000000000000000001) =
      .ok (.cwK25 0b1100000000000000000000000 true, []) := by rfl
theorem test_decode_cwK26 :
    decodeCodeword (numBits 54 0b000000000000000000000000001110000000000000000000000000) =
      .ok (.cwK26 0b11000000000000000000000000 false, []) := by rfl
theorem test_decode_cwK27 :
    decodeCodeword (numBits 56 0b00000000000000000000000000011100000000000000000000000001) =
      .ok (.cwK27 0b110000000000000000000000000 true, []) := by rfl
theorem test_decode_cwK28 :
    decodeCodeword (numBits 58 0b0000000000000000000000000000111000000000000000000000000000) =
      .ok (.cwK28 0b1100000000000000000000000000 false, []) := by rfl
theorem test_decode_cwK29 :
    decodeCodeword (numBits 60 0b000000000000000000000000000001110000000000000000000000000001) =
      .ok (.cwK29 0b11000000000000000000000000000 true, []) := by rfl
theorem test_decode_cwK30 :
    decodeCodeword (numBits 62 0b00000000000000000000000000000011100000000000000000000000000000) =
      .ok (.cwK30 0b110000000000000000000000000000 false, []) := by rfl
theorem test_decode_cut : decodeCodeword (numBits 5 0b00111) = .error .truncated := by rfl
theorem test_decode_zeros : decodeCodeword (numBits 8 0) = .error .truncated := by rfl
theorem test_decode_overrange : decodeCodeword (numBits 64 0b1) = .error .overrange := by rfl
theorem test_decode_bytes :
    decodeBytes [0x38#8, 0x68#8] = .ok (.cwK2 3 false, numBits 10 0b0001101000) := by rfl

/-! ### The opcode table's numbers (R66) -/

theorem test_table_put : decodeTableWord 8 0b01 = some (.encPut 0) := by rfl
theorem test_table_cwK0 : decodeTableWord 1 0b1 = some .cwK0 := by rfl
theorem test_table_cwK2 : decodeTableWord 8 0b001111 = some (.cwK2 3 true) := by rfl
theorem test_table_cwK30 : decodeTableWord 64 0x80000000 = some (.cwK30 0 false) := by rfl

/-- The machine runs a placed codeword as its first instruction (spec/95_test_vectors.md S4). -/
theorem test_withFetchWord_cwK2 :
    ∃ t, step (State.reset.withFetchWord 8 0b001111) = .next t ∧ t.out = [-6] :=
  ⟨_, rfl, by decide⟩

theorem test_withFetchWord_close :
    ∃ t, step (State.reset.withFetchWord 8 0b10) = .next t ∧ t.enc.closed = true :=
  ⟨_, rfl, by decide⟩

/-! ### Unit ENC, one step each (spec/95_test_vectors.md section 3, P6) -/

theorem test_encNop : exec .encNop Tests.faulted = .next Tests.faulted := by rfl

/-- The third line of section 3.3. -/
theorem test_encPut_crosses_byte :
    ∃ t, exec (.encPut (-1)) (Tests.encAt 0xA0 5) = .next t ∧
      t.enc.acc = 0x80 ∧ t.enc.pos = 1 ∧ t.sink.trace = [.byte 0xA2] :=
  ⟨_, rfl, by decide⟩

/-- The line 4 of P6, the longest codeword. -/
theorem test_encPut_longest :
    ∃ t, exec (.encPut (-2147483646)) State.reset = .next t ∧ t.enc.acc = 0xFC ∧ t.enc.pos = 6 ∧
      t.sink.trace =
        [.byte 0, .byte 0, .byte 0, .byte 3, .byte 0xFF, .byte 0xFF, .byte 0xFF] :=
  ⟨_, rfl, by decide⟩

/-- X1 of section 3.2. -/
theorem test_encClose_empty :
    ∃ t, exec .encClose State.reset = .next t ∧ t.sink.trace = [.flush] ∧ encStatus t = 0x01 :=
  ⟨_, rfl, by decide⟩

/-- X5 of section 3.2. -/
theorem test_encClose_zeros :
    ∃ t, exec .encClose (Tests.encAt 0 3) = .next t ∧ t.sink.trace = [.byte 0, .flush] ∧ t.enc.pos = 0 :=
  ⟨_, rfl, by decide⟩

theorem test_encRst : ∃ t, exec .encRst Tests.faulted = .next t ∧ t.enc = Enc.reset :=
  ⟨_, rfl, by decide⟩

/-! ### The micro-operations (spec/95_test_vectors.md W4, W14, F3, F5, F9; section 4.1) -/

theorem test_bwAppend_all_parts :
    ∃ w, bwAppend Params.default 0x12345 20 (Tests.encAt 0xA0 3).writer = .ok w ∧
      w.enc.acc = 0x8A ∧ w.enc.pos = 7 ∧ w.sink.trace = [.byte 0xA2, .byte 0x46] :=
  ⟨_, rfl, by decide⟩

theorem test_bwAppendChunked_all_parts :
    ∃ w, bwAppendChunked Params.default 0x12345 20 (Tests.encAt 0xA0 3).writer = .ok w ∧
      w.enc.acc = 0x8A ∧ w.enc.pos = 7 ∧ w.sink.trace = [.byte 0xA2, .byte 0x46] :=
  ⟨_, rfl, by decide⟩

theorem test_bwAppend_count :
    bwAppend Params.default 0 65 State.reset.writer = .refused .appendCount := by rfl

theorem test_decStep_separator :
    decStep Params.default true { Dec.reset with zc := 1 } =
      .quiet { Dec.reset with zc := 1, st := .shiftingBits, acc := 1, rem := 1 } := by rfl

theorem test_decStep_last_bit :
    decStep Params.default true { Dec.reset with zc := 1, st := .shiftingBits, acc := 1, rem := 1 } =
      .quiet { Dec.reset with zc := 1, st := .readingSign, acc := 2, rem := 0 } := by rfl

theorem test_decStep_overrange :
    decStep Params.default true { Dec.reset with zc := 31 } =
      .raised .decOverrange { Dec.reset with zc := 31, fault := true, cause := .decOverrange } := by rfl

theorem test_brNextBit_first :
    ∃ r, brNextBit Params.default (Tests.decOn [0xA5]).reader = .bit true r ∧
      r.dec.left = 7 ∧ r.source.content = [] :=
  ⟨_, rfl, by decide⟩

/-! ### Unit DEC, one step each (spec/95_test_vectors.md T3, T14, T20, P5) -/

theorem test_decNop : exec .decNop Tests.faulted = .next Tests.faulted := by rfl

/-- T14. -/
theorem test_decRead_joined :
    ∃ t, exec (.decRead 4) (Tests.decOn [0x80, 0x80]) = .next t ∧ t.out = [0] ∧
      t.decPort.result = .read 1 true ∧ t.dec.st = .readingSign ∧ t.dec.acc = 127 ∧ t.dec.zc = 7 :=
  ⟨_, rfl, by decide⟩

/-- The line 3 of P5. -/
theorem test_decRead_overrange :
    ∃ t, exec (.decRead 4) (Tests.decOn [0x40, 0, 0, 0, 0, 0x80]) = .next t ∧ t.out = [1] ∧
      t.decPort.result = .faulted .decOverrange 1 ∧ t.dec.zc = 36 ∧ t.dec.left = 7 ∧
      decStatus t = 0x12 :=
  ⟨_, rfl, by decide⟩

theorem test_decRst :
    ∃ t, exec .decRst Tests.faulted = .next t ∧ t.dec = Dec.reset ∧ t.enc.fault = true :=
  ⟨_, rfl, by decide⟩

/-! ### The public operations and the end of a run (R92, R98, R105, R113, R136) -/

/-- T21: the value before the fault and its count come with it (R113). -/
theorem test_decode_fault_keeps_values :
    decodeValues [0x40, 0, 0, 0, 0, 0x80] 4 State.reset = .faulted .decOverrange ([1], 1) := by decide

theorem test_deltaDecode_fault_keeps_sums :
    deltaDecode 100 [0x40, 0, 0, 0, 0, 0x80] 4 State.reset = .faulted .decOverrange [101] := by decide

/-- A sink that fails the write inside the first put: that fault is the answer (R98, R105). -/
theorem test_encode_put_faults :
    encodeValues [127, 0]
      { State.reset with
        params := Tests.failing, sink := { trace := [], past := [], plan := [.ok, .fail] } } =
      .faulted .ioFailSink [0x01] := by decide

theorem test_encode_out_of_range :
    encodeValues [0, 2147483647] State.reset = .refused .encRange := by decide

theorem test_decode_waiting : decodeValues [0x80] 1 Tests.decWaiting = .refused .busy := by decide

/-- Both ends of a run of unit DEC: the host stops reading, and exhaustion with a read still to come. -/
theorem test_decRun_host_stops :
    ∃ t, exec (.decRead 1) (Tests.decOn [0x38, 0x68]) = .next t ∧ t.dec.eos = false ∧ DecRunEnded t :=
  ⟨_, rfl, by decide, ⟨_, _, rfl, by decide⟩, by decide⟩

theorem test_decRun_exhausted :
    ∃ t, exec (.decRead 4) { Tests.decOn [0x38] with pending := [.decCmd 1 4] } = .next t ∧
      stopsReading t.pending = false ∧ DecRunEnded t :=
  ⟨_, rfl, by decide, ⟨_, _, rfl, by decide⟩, by decide⟩

/-! ### Codeword classes: the values of spec/95_test_vectors.md section 2 -/

theorem test_cwK0 : ∃ t, exec .cwK0 State.reset = .next t ∧ t.out = [0] := ⟨_, rfl, by decide⟩
theorem test_cwK1 : ∃ t, exec (.cwK1 1 true) State.reset = .next t ∧ t.out = [-2] := ⟨_, rfl, by decide⟩
theorem test_cwK2 : ∃ t, exec (.cwK2 3 true) State.reset = .next t ∧ t.out = [-6] := ⟨_, rfl, by decide⟩
theorem test_cwK3 : ∃ t, exec (.cwK3 5 false) State.reset = .next t ∧ t.out = [12] := ⟨_, rfl, by decide⟩
theorem test_cwK4 : ∃ t, exec (.cwK4 1 true) State.reset = .next t ∧ t.out = [-16] := ⟨_, rfl, by decide⟩
theorem test_cwK6 : ∃ t, exec (.cwK6 37 false) State.reset = .next t ∧ t.out = [100] := ⟨_, rfl, by decide⟩
theorem test_cwK7 : ∃ t, exec (.cwK7 1 false) State.reset = .next t ∧ t.out = [128] := ⟨_, rfl, by decide⟩
theorem test_cwK8 : ∃ t, exec (.cwK8 1 false) State.reset = .next t ∧ t.out = [256] := ⟨_, rfl, by decide⟩
theorem test_cwK9 : ∃ t, exec (.cwK9 489 true) State.reset = .next t ∧ t.out = [-1000] := ⟨_, rfl, by decide⟩
theorem test_cwK16 : ∃ t, exec (.cwK16 1 false) State.reset = .next t ∧ t.out = [65536] := ⟨_, rfl, by decide⟩
theorem test_cwK29 : ∃ t, exec (.cwK29 0x1FFFFFFF false) State.reset = .next t ∧ t.out = [1073741822] := ⟨_, rfl, by decide⟩
theorem test_cwK30 : ∃ t, exec (.cwK30 0x3FFFFFFF true) State.reset = .next t ∧ t.out = [-2147483646] := ⟨_, rfl, by decide⟩

/-! ### Witnesses: for every statement with hypotheses, a state and operands that meet them -/

theorem test_witness_DecodeEncode :
    Params.default.Valid ∧ (Instr.encPut (-2147483648)).FitsPorts Params.default ∧
      (Instr.encPut 2147483647).FitsPorts Params.default ∧
      (Instr.decRead 4294967295).FitsPorts Params.default ∧
      (Instr.cwK30 0x3FFFFFFF true).FitsPorts Params.default := by decide

theorem test_witness_DecodeEncode_smallest :
    Params.Valid { W := 3, PW := 3, CAPW := 1, hasIoErr := false } ∧
      (Instr.encPut (-4)).FitsPorts { W := 3, PW := 3, CAPW := 1, hasIoErr := false } := by decide

theorem test_witness_CodewordLengthIsFound :
    codewordFields .cwK0 = some (0, 0, false) ∧
      codewordFields (.cwK30 0x3FFFFFFF true) = some (30, 0x3FFFFFFF, true) := by decide

theorem test_witness_DecodedCodewordStandsInFront :
    decodeCodeword [false, true, true, false, true, true] = .ok (.cwK1 1 false, [true, true]) := by rfl

theorem test_witness_CodewordRowsDoNotOverlap :
    (codewordRow 2).length ≤ [false, false, true, true, true, true].length ∧
      bitsNat ([false, false, true, true, true, true].take (codewordRow 2).length) &&&
        (codewordRow 2).maskBits = (codewordRow 2).matchBits ∧
      (codewordRow 0).length ≤ [true].length ∧
      bitsNat ([true].take (codewordRow 0).length) &&& (codewordRow 0).maskBits =
        (codewordRow 0).matchBits := by decide

theorem test_witness_CodewordsArePrefixFree : cw (-6) <+: cw (-6) := by decide

theorem test_witness_CodewordLength :
    (-1 : Int) ≠ 0 ∧ (2 : Int).natAbs ≤ (-3 : Int).natAbs ∧
      ((-2 : Int) = 1 ∨ (-2 : Int) = -1 ∨ (-2 : Int) = 2 ∨ (-2 : Int) = -2) := by decide

theorem test_witness_CodewordAsNumber : (-6 : Int) ≠ 0 := by decide

theorem test_witness_FieldsAndValuesAgree : 1 ≤ 30 ∧ 0x3FFFFFFF < 2 ^ 30 := by decide

theorem test_witness_ChunkedAppendIsSeenAsBitwise : (Tests.encAt 0xFE 7).writer.Open := by
  unfold Writer.Open; decide

theorem test_witness_WriterLaw :
    (Tests.encAt 0xFE 7).writer.Open ∧ (Tests.encAt 0xFE 7).writer.sink.Reliable Params.default := by
  unfold Writer.Open Sink.Reliable; decide

theorem test_witness_PutAppendsCodeword :
    (Tests.encAt 0xA0 5).params.Valid ∧ InRange (Tests.encAt 0xA0 5).params (-2147483646) ∧
      (Tests.encAt 0xA0 5).enc.fault = false ∧ (Tests.encAt 0xA0 5).enc.closed = false ∧
      (Tests.encAt 0xA0 5).writer.Open ∧ (Tests.encAt 0xA0 5).sink.Reliable Params.default := by
  unfold Writer.Open Sink.Reliable; decide

theorem test_witness_PutRefusals :
    Tests.faulted.enc.fault = true ∧ (Tests.closed.enc.fault = false ∧ Tests.closed.enc.closed = true) ∧
      (State.reset.enc.fault = false ∧ State.reset.enc.closed = false ∧
        ¬ InRange State.reset.params 2147483647) := by decide

theorem test_witness_PutAndCloseFrame :
    (∃ t, exec .encClose (Tests.encAt 0xA0 5) = .next t) ∧
      (∃ t, exec (.encPut 12) (Tests.encAt 0xA0 5) = .next t) := ⟨⟨_, rfl⟩, ⟨_, rfl⟩⟩

theorem test_witness_FastPathIsUnobservable : 4 ≤ Params.default.PW := by decide

theorem test_witness_CloseCompletes :
    (Tests.encAt 0xFE 7).enc.fault = false ∧ (Tests.encAt 0xFE 7).enc.closed = false ∧
      (Tests.encAt 0xFE 7).enc.pos ≤ 7 ∧ (Tests.encAt 0xFE 7).sink.Reliable Params.default := by
  unfold Sink.Reliable; decide

theorem test_witness_ClosePadsWithZeros :
    (Tests.encAt 0x38 6).enc.fault = false ∧ (Tests.encAt 0x38 6).enc.closed = false ∧
      (Tests.encAt 0x38 6).writer.Open ∧ (Tests.encAt 0x38 6).sink.Reliable Params.default ∧
      (Tests.encAt 0x38 6).encPort.busy = false ∧ (Tests.encAt 0x38 6).encPort.marked = none := by
  unfold Writer.Open Sink.Reliable; decide

theorem test_witness_CloseRefusals :
    Tests.faulted.enc.fault = true ∧ Tests.closed.enc.fault = false ∧ Tests.closed.enc.closed = true := by
  decide

/-- A sink that fails its first call. -/
def Tests.failingSink (acc : BitVec 8) (pos : Nat) : State :=
  { Tests.encAt acc pos with params := Tests.failing, sink := { trace := [], past := [], plan := [.fail] } }

theorem test_witness_CloseWriteFails :
    (Tests.failingSink 0x80 1).enc.fault = false ∧ (Tests.failingSink 0x80 1).enc.closed = false ∧
      0 < (Tests.failingSink 0x80 1).enc.pos ∧ (Tests.failingSink 0x80 1).enc.pos ≤ 7 ∧
      (Tests.failingSink 0x80 1).params.hasIoErr = true ∧
      (Tests.failingSink 0x80 1).sink.plan = .fail :: [] := by decide

theorem test_witness_EncFaultsAreIoFailSink :
    (∃ t, exec .encClose (Tests.failingSink 0x80 1) = .next t ∧
      t.encPort.result = .faulted .ioFailSink) ∧
    (∃ t, exec (.encPut 0) (Tests.failingSink 0xFE 7) = .next t ∧
      t.encPort.result = .faulted .ioFailSink) := ⟨⟨_, rfl, by decide⟩, ⟨_, rfl, by decide⟩⟩

/-- The three boundaries of the zero count: 0, NBITS_MAX, NBITS_MAX + 1. -/
theorem test_witness_StepCountingZeros :
    Dec.reset.st = .countingZeros ∧ Dec.reset.zc = 0 ∧ (30 ≠ 0 ∧ 30 ≤ Params.default.nbitsMax) ∧
      Params.default.nbitsMax < 31 := by decide

/-- A unit in ShiftingBits with `r` bits to read. -/
def Tests.shifting (r : Nat) : Dec := { Dec.reset with st := .shiftingBits, zc := 2, acc := 1, rem := r }

theorem test_witness_StepShiftingBits :
    ((Tests.shifting 1).st = .shiftingBits ∧ (Tests.shifting 1).rem = 1) ∧
      ((Tests.shifting 2).st = .shiftingBits ∧ 1 < (Tests.shifting 2).rem) ∧
      FsmInv Params.default (Tests.shifting 2) :=
  ⟨by decide, by decide,
    (by decide : 1 ≤ 2 ∧ 2 ≤ 2 ∧ 2 ≤ Params.default.nbitsMax ∧ 2 ^ (2 - 2) ≤ 1 ∧ 1 ≤ 2 ^ (2 - 2 + 1) - 1)⟩

/-- The last clause: the state is entered from CountingZeros, here after NBITS_MAX zeros. -/
theorem test_witness_StepShiftingBits_entered :
    ∃ d1, decStep Params.default true { Dec.reset with zc := 30 } = .quiet d1 ∧
      d1.st = .shiftingBits ∧ Dec.reset.st ≠ .shiftingBits := ⟨_, rfl, by decide⟩

/-- The last bit of a codeword of class 30, with the accumulator at MAG_MAX. -/
theorem test_witness_StepReadingSign :
    ({ Dec.reset with st := .readingSign, acc := 2147483646, zc := 30 } : Dec).st = .readingSign ∧
      FsmInv Params.default { Dec.reset with st := .readingSign, acc := 2147483646, zc := 30 } :=
  ⟨rfl, (by decide : 0 = 0 ∧ 1 ≤ 30 ∧ 30 ≤ Params.default.nbitsMax ∧ 2 ^ 30 - 1 ≤ 2147483646 ∧
    2147483646 ≤ 2 ^ (30 + 1) - 2)⟩

theorem test_witness_RegisterFormIsCanonical :
    (Tests.shifting 1).st = .shiftingBits → 1 ≤ (Tests.shifting 1).rem := by decide

/-- The first 9 bits, and all 16. -/
theorem test_witness_ReaderDeliversInOrder :
    (Tests.decOn [0x38, 0x68]).dec.left ≤ 8 ∧ (Tests.decOn [0x38, 0x68]).dec.eos = false ∧
      (Tests.decOn [0x38, 0x68]).source.Reliable Params.default ∧
      9 ≤ (Tests.decOn [0x38, 0x68]).reader.bits.length ∧
      16 = (Tests.decOn [0x38, 0x68]).reader.bits.length := by
  unfold Source.Reliable; decide

theorem test_witness_ExhaustionIsResignalled :
    (Tests.decIs { Dec.reset with eos := true }).dec.eos = true ∧
      (Tests.decIs { Dec.reset with eos := true }).dec.left = 0 ∧
      (Tests.decIs { Dec.reset with eos := true }).dec.fault = false ∧
      (Tests.decIs { Dec.reset with eos := true }).dec.illegal = false := by decide

/-- `encode([6, 12])`: two values, then two bits of padding. -/
theorem test_witness_ReadDecodesStream :
    (Tests.decOn [0x38, 0x68]).dec.BetweenCodewords ∧
      (Tests.decOn [0x38, 0x68]).source.Reliable Params.default ∧
      (∀ v ∈ [(6 : Int), 12], InRange Params.default v) ∧
      (Tests.decOn [0x38, 0x68]).reader.bits = cws [6, 12] ++ [false, false] := by
  unfold Dec.BetweenCodewords Source.Reliable; decide

/-- T9: the tail is the front of cw(12), which is also all zeros. -/
theorem test_witness_TruncatedTailIsDropped :
    (Tests.decOn [0x38]).dec.BetweenCodewords ∧ (Tests.decOn [0x38]).source.Reliable Params.default ∧
      (∀ v ∈ [(6 : Int)], InRange Params.default v) ∧
      (Tests.decOn [0x38]).reader.bits = cws [6] ++ [false, false] ∧
      (InRange Params.default 12 ∧ [false, false] <+: cw 12 ∧ [false, false] ≠ cw 12) ∧
      [false, false] = List.replicate [false, false].length false ∧ [(6 : Int)].length < 4 := by
  unfold Dec.BetweenCodewords Source.Reliable; decide

/-- T8, zeros only: the second case alone, with more zeros than any codeword in range begins with. -/
theorem test_witness_TruncatedTailIsDropped_zeros :
    (Tests.decOn [0, 0, 0, 0, 0]).dec.BetweenCodewords ∧
      (Tests.decOn [0, 0, 0, 0, 0]).source.Reliable Params.default ∧
      (Tests.decOn [0, 0, 0, 0, 0]).reader.bits = cws [] ++ List.replicate 40 false := by
  unfold Dec.BetweenCodewords Source.Reliable; decide

/-- The first case alone: three bits are left of the loaded byte, a codeword cut after its separator. -/
theorem test_witness_TruncatedTailIsDropped_cut :
    (Tests.decIs { Dec.reset with cur := 0x01, left := 3 }).dec.BetweenCodewords ∧
      (Tests.decIs { Dec.reset with cur := 0x01, left := 3 }).source.Reliable Params.default ∧
      (Tests.decIs { Dec.reset with cur := 0x01, left := 3 }).reader.bits =
        cws [] ++ [false, false, true] ∧
      InRange Params.default 6 ∧ [false, false, true] <+: cw 6 ∧ [false, false, true] ≠ cw 6 := by
  unfold Dec.BetweenCodewords Source.Reliable; decide

/-- T2. -/
theorem test_witness_ReadsMayBeSplit :
    ∃ t u, exec (.decRead 2) (Tests.decOn [0x38, 0x68]) = .next t ∧ t.decPort.result = .read 2 false ∧
      exec (.decRead 1) t = .next u := ⟨_, _, rfl, by decide, rfl⟩

theorem test_witness_ReadZeroAndRefusal :
    Tests.faulted.dec.fault = true ∧ State.reset.dec.fault = false ∧ State.reset.dec.illegal = false := by
  decide

/-- T19 before its last bit. -/
def Tests.beforeOverrange : State := Tests.decIs { Dec.reset with zc := 31, cur := 0x01, left := 1 }

theorem test_witness_OverrangeFaults :
    Tests.beforeOverrange.dec.fault = false ∧ Tests.beforeOverrange.dec.st = .countingZeros ∧
      Tests.beforeOverrange.params.nbitsMax < Tests.beforeOverrange.dec.zc ∧
      0 < Tests.beforeOverrange.dec.left ∧ Tests.beforeOverrange.dec.left ≤ 8 ∧
      Tests.beforeOverrange.dec.cur.getLsbD (Tests.beforeOverrange.dec.left - 1) = true ∧ 0 < 1 := by
  decide

/-- A source that fails its first call. -/
def Tests.failingSource : State :=
  { State.reset with params := Tests.failing, source := { content := [0x80], trace := [], plan := [.fail] } }

theorem test_witness_SourceFailureFaults :
    Tests.failingSource.dec.fault = false ∧ Tests.failingSource.dec.illegal = false ∧
      Tests.failingSource.dec.left = 0 ∧ Tests.failingSource.dec.eos = false ∧
      Tests.failingSource.params.hasIoErr = true ∧ Tests.failingSource.source.plan = .fail :: [] ∧
      0 < 1 := by decide

theorem test_witness_ReadFrame :
    ∃ t, exec (.decRead 4) (Tests.decOn [0x38]) = .next t ∧ t.decPort.result ≠ .waiting ∧
      t.decPort.result = .read 1 true ∧ 1 < 4 := ⟨_, rfl, by decide⟩

theorem test_witness_CodewordEmitsItsValue :
    codewordFields (.cwK30 5 true) = some (30, 5, true) ∧ State.reset.dec.BetweenCodewords ∧
      30 ≤ State.reset.params.nbitsMax := by
  unfold Dec.BetweenCodewords; decide

/-- A block built with W = 8. -/
def Tests.narrow : State :=
  { State.reset with params := { W := 8, PW := 8, CAPW := 1, hasIoErr := false } }

theorem test_witness_CodewordOverrangeFaults :
    codewordFields (.cwK7 5 true) = some (7, 5, true) ∧ Tests.narrow.dec.BetweenCodewords ∧
      Tests.narrow.params.nbitsMax < 7 := by
  unfold Dec.BetweenCodewords; decide

theorem test_witness_CodewordFrame :
    (codewordFields (.cwK2 3 true)).isSome ∧ (∃ t, exec (.cwK2 3 true) State.reset = .next t) :=
  ⟨by decide, _, rfl⟩

theorem test_witness_ReadRunsTheCodeword :
    codewordFields (.cwK2 3 false) = some (2, 3, false) ∧
      (Tests.decOn [0x38, 0x68]).dec.BetweenCodewords ∧
      2 ≤ (Tests.decOn [0x38, 0x68]).params.nbitsMax ∧
      (Tests.decOn [0x38, 0x68]).source.Reliable Params.default ∧
      (Tests.decOn [0x38, 0x68]).reader.bits = codewordBits 2 3 false ++ numBits 10 0b0001101000 := by
  unfold Dec.BetweenCodewords Source.Reliable; decide

theorem test_witness_StepRunsTheDecodedCommand :
    (Tests.lines [.encCmd 1 6]).pending = .encCmd 1 6 :: [] ∧
      (Tests.lines [.encCmd 1 6]).encPort.busy = false ∧
      (Tests.lines [.decCmd 1 5]).pending = .decCmd 1 5 :: [] ∧
      (Tests.lines [.decCmd 1 5]).decPort.busy = false ∧
      decodeDecCmd (Tests.lines [.decCmd 1 5]).params 1 5 = .ok (.decRead 5) :=
  ⟨rfl, rfl, rfl, rfl, rfl⟩

theorem test_witness_StepWithoutInstruction :
    State.reset.pending = [] ∧
      (Tests.lines [.src [0x38, 0x68]]).pending = .src [0x38, 0x68] :: [] ∧
      ((Tests.lines [.decCmd 2 0]).pending = .decCmd 2 0 :: [] ∧
        (Tests.lines [.decCmd 2 0]).decPort.busy = false) ∧
      ((Tests.waiting [.encCmd 3 0]).pending = .encCmd 3 0 :: [] ∧
        (Tests.waiting [.encCmd 3 0]).encPort.busy = true) ∧
      ((Tests.waiting [.decCmd 2 0]).pending = .decCmd 2 0 :: [] ∧
        (Tests.waiting [.decCmd 2 0]).decPort.busy = true) := by decide

/-- A state with the invariant that a run reaches in mid-codeword, with a command to come. -/
def Tests.midway : State :=
  { Tests.lines [.decCmd 1 4] with
    enc := { Enc.reset with acc := 0xA0, pos := 5 }
    dec := { Dec.reset with st := .shiftingBits, zc := 2, acc := 3, rem := 1, cur := 0x38, left := 4 } }

theorem test_witness_NoStepStops : Tests.midway.Inv :=
  ⟨by unfold EncInv; decide, by decide, by decide, by decide, by decide,
    (by decide : 1 ≤ 1 ∧ 1 ≤ 2 ∧ 2 ≤ Params.default.nbitsMax ∧ 2 ^ (2 - 1) ≤ 3 ∧ 3 ≤ 2 ^ (2 - 1 + 1) - 1)⟩

theorem test_witness_StepKeepsInvariant : Tests.midway.Inv ∧ ∃ t, step Tests.midway = .next t :=
  ⟨test_witness_NoStepStops, _, rfl⟩

theorem test_witness_FaultsAreSticky :
    (∃ t, exec (.encPut 0) Tests.faulted = .next t ∧ Tests.faulted.enc.fault = true ∧
      Instr.encPut 0 ≠ .encRst) ∧
    (∃ t, exec (.decRead 1) Tests.faulted = .next t ∧ Tests.faulted.dec.fault = true ∧
      Instr.decRead 1 ≠ .decRst) := ⟨⟨_, rfl, by decide⟩, ⟨_, rfl, by decide⟩⟩

theorem test_witness_UnitsAreIndependent :
    (Instr.encPut 6).unit = .enc ∧ (Instr.decRead 2).unit = .dec ∧
      (∃ t, execAll [.encPut 6, .decRead 2] (Tests.decOn [0x38, 0x68]) = .next t) :=
  ⟨rfl, rfl, _, rfl⟩

theorem test_witness_SinkOnlyGrows : ∃ t, step (Tests.lines [.encCmd 2 0]) = .next t := ⟨_, rfl⟩

theorem test_witness_OperationsReturn :
    Answered Tests.failingSource ∧ Tests.failingSource.encPort.busy = false ∧
      Tests.failingSource.decPort.busy = false ∧
      (∃ t, exec (.decRead 1) Tests.failingSource = .next t) :=
  ⟨by unfold Answered; decide, rfl, rfl, _, rfl⟩

theorem test_witness_EncodeIsPacking :
    State.reset.params.Valid ∧ State.reset.sink.Reliable State.reset.params ∧
      State.reset.encPort.busy = false ∧
      (∀ v ∈ [(6 : Int), 2147483646, -2147483646], InRange State.reset.params v) := by
  unfold Sink.Reliable; decide

theorem test_witness_RoundTrip :
    State.reset.params.Valid ∧ State.reset.sink.Reliable State.reset.params ∧
      State.reset.source.Reliable State.reset.params ∧ State.reset.encPort.busy = false ∧
      State.reset.decPort.busy = false ∧ (∀ v ∈ [(6 : Int), 12], InRange State.reset.params v) ∧ [(6 : Int), 12].length ≤ 2 := by
  unfold Sink.Reliable Source.Reliable; decide

theorem test_witness_DeltaRoundTrip :
    State.reset.params.Valid ∧ State.reset.sink.Reliable State.reset.params ∧
      State.reset.source.Reliable State.reset.params ∧ State.reset.encPort.busy = false ∧ 1 ≤ 1 ∧
      (∀ d ∈ deltas 100 [101, 103, 106, 110, 109, 100], InRange State.reset.params d) ∧
      (∀ v ∈ [(101 : Int), 103, 106, 110, 109, 100], FitsValue State.reset.params v) ∧
      State.reset.decPort.busy = false := by
  unfold Sink.Reliable Source.Reliable; decide

/-- The last clause: unit DEC waits, unit ENC does not. -/
theorem test_witness_DeltaRoundTrip_busy :
    (Tests.decWaiting).params.Valid ∧ Tests.decWaiting.sink.Reliable Tests.decWaiting.params ∧
      Tests.decWaiting.source.Reliable Tests.decWaiting.params ∧ Tests.decWaiting.encPort.busy = false ∧
      (∀ d ∈ deltas 0 [6, 12], InRange Tests.decWaiting.params d) ∧
      (∀ v ∈ [(6 : Int), 12], FitsValue Tests.decWaiting.params v) ∧
      Tests.decWaiting.decPort.busy = true := by
  unfold Sink.Reliable Source.Reliable; decide
end

section
/-! PROOFS. The encoding of integers (spec/30_encoding.md R52, R56): the class of an integer, the length of
its codeword, and its fields against its value. -/
namespace Sys2Proof

/-! ### The class of an integer -/

/-- An integer's class is where its biased magnitude lies among the powers of 2 (R53). -/
theorem nbits_eq_iff (n : Int) (k : Nat) : nbits n = k ↔ 2 ^ k ≤ biased n ∧ biased n < 2 ^ (k + 1) := by
  change (biased n).log2 = k ↔ _
  exact Nat.log2_eq_iff (Nat.succ_ne_zero n.natAbs)

/-- The biased magnitude is the implicit leading 1 with the magnitude field below it (R56). -/
theorem biased_eq_leadingOne_add_field (n : Int) :
    biased n = 2 ^ nbits n + low (biased n) (nbits n) := by
  obtain ⟨hle, hlt⟩ := (nbits_eq_iff n (nbits n)).mp rfl
  rw [pow_succ] at hlt
  rw [low, Nat.mod_eq_sub_mod hle, Nat.mod_eq_of_lt (by omega)]
  omega

theorem nbits_eq_of_biased {n : Int} {k m : Nat} (hm : m < 2 ^ k) (h : biased n = 2 ^ k + m) :
    nbits n = k := by
  rw [nbits_eq_iff, h, pow_succ]
  omega

theorem field_eq_of_biased {n : Int} {k m : Nat} (hm : m < 2 ^ k) (h : biased n = 2 ^ k + m) :
    low (biased n) k = m := by
  rw [h, low, Nat.add_mod_left, Nat.mod_eq_of_lt hm]

/-- Class 0 holds the integer 0 only (R53). -/
@[simp] theorem nbits_eq_zero_iff (n : Int) : nbits n = 0 ↔ n = 0 := by
  rw [nbits_eq_iff, biased, magnitude]
  omega

theorem nbits_le_nbits {m n : Int} (h : m.natAbs ≤ n.natAbs) : nbits m ≤ nbits n := by
  obtain ⟨hm, -⟩ := (nbits_eq_iff m (nbits m)).mp rfl
  obtain ⟨-, hn⟩ := (nbits_eq_iff n (nbits n)).mp rfl
  have hpow : 2 ^ nbits m < 2 ^ (nbits n + 1) :=
    calc 2 ^ nbits m ≤ biased m := hm
      _ ≤ biased n := Nat.succ_le_succ h
      _ < 2 ^ (nbits n + 1) := hn
  exact Nat.le_of_lt_succ ((Nat.pow_lt_pow_iff_right (by decide)).mp hpow)

/-! ### The codeword of an integer -/

/-- The encoder writes the bits of an integer's own fields (R50, R67). -/
theorem cw_eq_codewordBits (n : Int) :
    cw n = codewordBits (nbits n) (low (biased n) (nbits n)) (signBit n) := by
  simp only [cw, codewordBits, nbits_eq_zero_iff]

theorem cw_length (n : Int) : (cw n).length = if n = 0 then 1 else 2 * nbits n + 2 := by
  split
  case isTrue h => rw [h]; rfl
  case isFalse h =>
    have hk : 1 ≤ nbits n := Nat.one_le_iff_ne_zero.mpr (mt (nbits_eq_zero_iff n).mp h)
    rw [cw_eq_codewordBits, Laws.TableRow.codewordBits_length _ _ _ hk]

theorem cw_length_le {m n : Int} (h : m.natAbs ≤ n.natAbs) : (cw m).length ≤ (cw n).length := by
  have hk : nbits m ≤ nbits n := nbits_le_nbits h
  rw [cw_length, cw_length]
  split_ifs <;> omega

theorem cw_length_neg (n : Int) : (cw (-n)).length = (cw n).length :=
  le_antisymm (cw_length_le n.natAbs_neg.le) (cw_length_le n.natAbs_neg.ge)

/-- Settles O9, from the length in terms of the class and the growth of the class with the magnitude. -/
theorem codewordLength : Obligations.CodewordLength := by
  refine ⟨cw_length, fun n hn => ?_, fun _ _ => cw_length_le, cw_length_neg, ?_⟩
  · rw [cw_length, if_neg hn]; rfl
  · rintro n (rfl | rfl | rfl | rfl) <;> rfl

/-! ### The value of the fields -/

@[simp] theorem codewordValue_zero (m : Nat) (neg : Bool) : codewordValue 0 m neg = 0 := rfl

theorem codewordValue_of_pos {k : Nat} (m : Nat) (neg : Bool) (hk : 1 ≤ k) :
    codewordValue k m neg = if neg then -(2 ^ k + m - 1 : Int) else 2 ^ k + m - 1 := by
  simp [codewordValue, Nat.one_le_iff_ne_zero.mp hk]

/-- The fields' value has the magnitude that the leading 1 and the field spell, less the bias; it is not 0,
so its sign is the sign bit (R60 (a)). -/
theorem biased_and_signBit_codewordValue {k : Nat} (m : Nat) (neg : Bool) (hk : 1 ≤ k) :
    biased (codewordValue k m neg) = 2 ^ k + m ∧ signBit (codewordValue k m neg) = neg := by
  have hpow : 2 ≤ 2 ^ k := Nat.le_self_pow (by omega) 2
  rw [biased, magnitude, signBit, codewordValue, if_neg (by omega)]
  cases neg
  · simp only [Bool.false_eq_true, if_false, decide_eq_false_iff_not]
    omega
  · simp only [if_true, decide_eq_true_eq]
    omega

/-- Decoding the encoder's fields gives the integer back (R56, R67). -/
theorem codewordValue_of_fields (n : Int) :
    codewordValue (nbits n) (low (biased n) (nbits n)) (signBit n) = n := by
  by_cases hn : n = 0
  · rw [(nbits_eq_zero_iff n).mpr hn, codewordValue_zero, hn]
  · rw [codewordValue, if_neg (mt (nbits_eq_zero_iff n).mp hn), ← biased_eq_leadingOne_add_field,
      biased, magnitude, signBit]
    by_cases hneg : n < 0
    · rw [decide_eq_true hneg, if_pos rfl]; omega
    · rw [decide_eq_false hneg, if_neg Bool.false_ne_true]; omega

/-- Encoding the value of any fields of a class gives the bits of those fields (R56, R67). -/
theorem cw_codewordValue {k m : Nat} (neg : Bool) (hk : 1 ≤ k) (hm : m < 2 ^ k) :
    cw (codewordValue k m neg) = codewordBits k m neg := by
  obtain ⟨hbiased, hsign⟩ := biased_and_signBit_codewordValue m neg hk
  rw [cw_eq_codewordBits, nbits_eq_of_biased hm hbiased, field_eq_of_biased hm hbiased, hsign]

/-- Settles O12: encoding and decoding of the fields are inverse, by the biased magnitude. -/
theorem fieldsAndValuesAgree : Obligations.FieldsAndValuesAgree :=
  ⟨codewordValue_zero,
    fun _ m hk => ⟨codewordValue_of_pos m false hk, codewordValue_of_pos m true hk⟩,
    codewordValue_of_fields,
    fun _ _ neg hk hm => cw_codewordValue neg hk hm⟩

end Sys2Proof
end

section
/-! PROOFS. encode is the packing of the codewords (spec/40_codeword_encoder.md R71): the writer's law for a
whole bit string, what the commands of unit ENC do when the sink answers, and their sequence in encode. -/
namespace Sys2Proof

/-- The class of an integer in range is one that the block carries (R9). -/
theorem nbits_le_nbitsMax {p : Params} {item : Int} (hp : p.Valid) (h : InRange p item) :
    nbits item ≤ p.nbitsMax := by
  obtain ⟨hW, -, -⟩ := hp
  obtain ⟨hlo, hhi⟩ := h
  obtain ⟨hle, -⟩ := (nbits_eq_iff item (nbits item)).mp rfl
  have hbiased : biased item < 2 ^ (p.W - 1) := by
    have hcast : ((2 ^ (p.W - 1) : Nat) : Int) = 2 ^ (p.W - 1) := Nat.cast_pow 2 (p.W - 1)
    rw [biased, magnitude]
    rw [Params.magMax, ← hcast] at hlo hhi
    omega
  have hclass : nbits item < p.W - 1 :=
    (Nat.pow_lt_pow_iff_right (by decide)).mp (hle.trans_lt hbiased)
  rw [Params.nbitsMax]
  omega

/-- Whole bytes need no padding: only the bits after them count (R35). -/
theorem padLen_eight_mul_add (m n : Nat) : padLen (8 * m + n) = padLen n := by
  rw [padLen, padLen, Nat.mul_add_mod]

/-- Bytes that spell a string padded with zeros to a whole byte are its packing (R58). -/
theorem packPadded_eq_of_bytesBits {bytes : List Byte} {bits : BitString}
    (h : bytesBits bytes = bits ++ List.replicate (padLen bits.length) false) :
    packPadded bits = bytes := by
  rw [packPadded, ← h, pack_bytesBits]

/-- A byte whose bits below the first `pos` are zero is spelt by those `pos` bits and zeros (R14). -/
theorem byteBits_of_low_zero {acc : Byte} {pos : Nat} (hpos : pos ≤ 8)
    (hlow : low acc.toNat (8 - pos) = 0) :
    byteBits acc = (byteBits acc).take pos ++ List.replicate (8 - pos) false := by
  have hsplit : byteBits acc =
      numBits pos (acc.toNat >>> (8 - pos)) ++ List.replicate (8 - pos) false := by
    rw [byteBits, ← numBits_zero_value, ← hlow, numBits_low, ← numBits_add, Nat.add_sub_cancel' hpos]
  have htake : (byteBits acc).take pos = numBits pos (acc.toNat >>> (8 - pos)) := by
    rw [hsplit, List.take_left' (numBits_length _ _)]
  rw [htake, hsplit]

namespace Machine

/-! ### The writer -/

/-- What appending a bit string does to an open writer whose sink answers (R80): the string is spelt after
what was spelt before, whole bytes are handed over, and nothing else of unit and sink changes. -/
structure Writer.Took (p : Params) (w : Writer) (bits : BitString) (w1 : Writer) : Prop where
  isOpen : w1.Open
  reliable : w1.sink.Reliable p
  spelt : w1.bits = w.bits ++ bits
  written : ∃ bytes : List Byte, w1.sink.trace = w.sink.trace ++ bytes.map SinkItem.byte ∧
    8 * bytes.length + w1.enc.pos = w.enc.pos + bits.length
  past : w1.sink.past = w.sink.past
  closed : w1.enc.closed = w.enc.closed
  fault : w1.enc.fault = w.enc.fault
  cause : w1.enc.cause = w.enc.cause

theorem Writer.Took.nil {p : Params} {w : Writer} (ho : w.Open) (hr : w.sink.Reliable p) :
    w.Took p [] w :=
  ⟨ho, hr, by simp, ⟨[], by simp, by simp⟩, rfl, rfl, rfl, rfl⟩

theorem Writer.Took.trans {p : Params} {w w1 w2 : Writer} {xs ys : BitString} (h1 : w.Took p xs w1)
    (h2 : w1.Took p ys w2) : w.Took p (xs ++ ys) w2 := by
  obtain ⟨bytes1, htrace1, hlen1⟩ := h1.written
  obtain ⟨bytes2, htrace2, hlen2⟩ := h2.written
  refine ⟨h2.isOpen, h2.reliable, ?_, ⟨bytes1 ++ bytes2, ?_, ?_⟩, h2.past.trans h1.past,
    h2.closed.trans h1.closed, h2.fault.trans h1.fault, h2.cause.trans h1.cause⟩
  · rw [h2.spelt, h1.spelt, List.append_assoc]
  · rw [htrace2, htrace1, List.map_append, List.append_assoc]
  · rw [List.length_append, List.length_append]
    omega

theorem bwBit_took {p : Params} {w : Writer} (b : Bool) (ho : w.Open) (hr : w.sink.Reliable p) :
    ∃ w1, bwBit p b w = .ok w1 ∧ w.Took p [b] w1 := by
  obtain ⟨w1, hok, ho1, hr1, hbits, hwritten, hpast, hclosed, hfault, hcause⟩ := bwBit_law p b w ho hr
  exact ⟨w1, hok, ho1, hr1, hbits, hwritten, hpast, hclosed, hfault, hcause⟩

/-- The writer's law for a bit string, from the law for one bit (R80). -/
theorem bwBits_took {p : Params} {w : Writer} (bits : BitString) (ho : w.Open)
    (hr : w.sink.Reliable p) : ∃ w1, bwBits p bits w = .ok w1 ∧ w.Took p bits w1 := by
  induction bits generalizing w with
  | nil => exact ⟨w, rfl, .nil ho hr⟩
  | cons b bits ih =>
    obtain ⟨w1, hok1, h1⟩ := bwBit_took b ho hr
    obtain ⟨w2, hok2, h2⟩ := ih h1.isOpen h1.reliable
    exact ⟨w2, by rw [bwBits_cons, hok1, andThen_ok, hok2], h1.trans h2⟩

/-- The four appends of ENC.PUT take the item's codeword (R68). -/
theorem putBits_took {p : Params} {w : Writer} {item : Int} (hp : p.Valid) (hin : InRange p item)
    (ho : w.Open) (hr : w.sink.Reliable p) :
    ∃ w1, putBits p item w = .ok w1 ∧ w.Took p (cw item) w1 := by
  have hclass : nbits item ≤ p.W - 2 := nbits_le_nbitsMax hp hin
  obtain ⟨hW, hPW, -⟩ := hp
  rw [putBits_eq_cw p item w (by omega) (by omega)]
  exact bwBits_took (cw item) ho hr

/-- The sink trace that a close leaves (R79): the partial byte, if there is one, and the marker `F`. -/
def Writer.closedTrace (w : Writer) : List SinkItem :=
  w.sink.trace ++ (if 0 < w.enc.pos then [.byte w.enc.acc] else []) ++ [.flush]

/-- The pending byte of a close is written when there is one, and the writer is then empty (R79). -/
theorem bwPad_reliable {p : Params} {w : Writer} (hr : w.sink.Reliable p) :
    ∃ k : Sink, bwPad p w =
        .ok { enc := { w.enc with acc := if 0 < w.enc.pos then 0 else w.enc.acc, pos := 0 }, sink := k } ∧
      k.Reliable p ∧
      k.trace = w.sink.trace ++ (if 0 < w.enc.pos then [.byte w.enc.acc] else []) ∧
      k.past = w.sink.past := by
  by_cases hpos : 0 < w.enc.pos
  · obtain ⟨hans, hrel, htrace, hpast⟩ := sinkCall_reliable p (.byte w.enc.acc) w.sink hr
    refine ⟨_, ?_, hrel, by rw [htrace, if_pos hpos], hpast⟩
    simp only [bwPad, if_pos hpos, sinkWrite, sinkDone, hans]
  · have hzero : w.enc.pos = 0 := Nat.eq_zero_of_not_pos hpos
    refine ⟨w.sink, ?_, hr, by simp [hzero], rfl⟩
    rw [bwPad, if_neg hpos, if_neg hpos, ← hzero]

/-- A close on a sink that answers completes (R70, R79). -/
theorem closeStream_reliable {p : Params} {w : Writer} (hr : w.sink.Reliable p) :
    ∃ k : Sink, closeStream p w =
        .ok { enc := { w.enc with acc := if 0 < w.enc.pos then 0 else w.enc.acc, pos := 0, closed := true },
              sink := k } ∧
      k.trace = w.closedTrace ∧ k.past = w.sink.past := by
  obtain ⟨k, hpad, hrel, htrace, hpast⟩ := bwPad_reliable hr
  obtain ⟨hans, -, hflush, hkept⟩ := sinkCall_reliable p .flush k hrel
  refine ⟨_, ?_, by rw [hflush, htrace, Writer.closedTrace], hkept.trans hpast⟩
  simp only [closeStream, bwClose, hpad, andThen_ok, sinkFlush, sinkDone, hans]

/-- The bytes of a closed stream spell the bits appended, padded with zeros to a whole byte (R35, R79). -/
theorem bytesBits_closedTrace {w : Writer} (ho : w.Open) :
    bytesBits (sinkBytes w.closedTrace) =
      w.bits ++ List.replicate (padLen w.bits.length) false := by
  obtain ⟨hpos, hlow⟩ := ho
  have hpad : padLen w.bits.length = padLen w.enc.pos := by
    have hpending : min w.enc.pos 8 = w.enc.pos := Nat.min_eq_left (by omega)
    rw [Writer.bits, List.length_append, bytesBits_length, List.length_take, byteBits_length,
      padLen_eight_mul_add, hpending]
  rw [hpad, Writer.bits, Writer.closedTrace, padLen]
  by_cases hzero : w.enc.pos = 0
  · simp [hzero, sinkBytes]
  · have hlen : (8 - w.enc.pos % 8) % 8 = 8 - w.enc.pos := by omega
    rw [hlen, List.append_assoc (bytesBits _), ← byteBits_of_low_zero (by omega) hlow]
    simp [Nat.pos_of_ne_zero hzero, sinkBytes]

/-! ### The commands of unit ENC -/

/-- Unit ENC takes puts and a close: it is neither faulted nor closed, it stands between two
micro-operations, and its sink answers. -/
structure State.EncOpen (s : State) : Prop where
  fault : s.enc.fault = false
  closed : s.enc.closed = false
  writerOpen : s.writer.Open
  reliable : s.sink.Reliable s.params

theorem State.EncOpen.not_illegal {s : State} (h : s.EncOpen) : s.enc.illegal = false := by
  obtain ⟨hpos, -⟩ := h.writerOpen
  rw [State.writer_enc] at hpos
  simp only [Enc.illegal, decide_eq_false_iff_not]
  omega

/-- A unit that took bits takes more. -/
theorem State.EncOpen.of_took {s : State} {bits : BitString} {w : Writer} (h : s.EncOpen)
    (ht : s.writer.Took s.params bits w) (x : EncResult) :
    ((s.withWriter w).withEncResult x).EncOpen :=
  ⟨ht.fault.trans h.fault, ht.closed.trans h.closed, ht.isOpen, ht.reliable⟩

/-- ENC.PUT of an item in range returns, with the item's codeword taken (R68). -/
theorem exec_encPut_of_encOpen {s : State} {item : Int} (hp : s.params.Valid)
    (hin : InRange s.params item) (h : s.EncOpen) :
    ∃ w, exec (.encPut item) s = .next ((s.withWriter w).withEncResult .returned) ∧
      s.writer.Took s.params (cw item) w := by
  obtain ⟨w, hput, ht⟩ := putBits_took hp hin h.writerOpen h.reliable
  have hexec : exec (.encPut item) s = finishEnc s (putBits s.params item s.writer) := by
    simp [exec, execEncPut, h.fault, h.closed, hin, h.not_illegal]
  exact ⟨w, by rw [hexec, hput, finishEnc], ht⟩

/-- ENC.CLOSE returns, with the unit closed (R70). -/
theorem exec_encClose_of_encOpen {s : State} (h : s.EncOpen) :
    ∃ w, exec .encClose s = .next ((s.withWriter w).withEncResult .returned) ∧
      w.enc = { s.enc with acc := if 0 < s.enc.pos then 0 else s.enc.acc, pos := 0, closed := true } ∧
      w.sink.trace = s.writer.closedTrace ∧ w.sink.past = s.sink.past := by
  obtain ⟨k, hclose, htrace, hpast⟩ := closeStream_reliable (w := s.writer) h.reliable
  have hexec : exec .encClose s = finishEnc s (closeStream s.params s.writer) := by
    simp [exec, execEncClose, h.fault, h.closed, h.not_illegal]
  exact ⟨_, by rw [hexec, hclose, finishEnc], rfl, htrace, hpast⟩

/-- ENC.RST opens the unit with nothing appended, whatever was before it (R123). -/
theorem issueEnc_encRst {s : State} (hb : s.encPort.busy = false) (hr : s.sink.Reliable s.params) :
    ∃ t, issueEnc .encRst s = .ok t ∧ t.EncOpen ∧ t.encPort.busy = false ∧ t.params = s.params ∧
      t.writer.bits = [] :=
  ⟨_, issueEnc_returned .encRst s _ hb rfl rfl,
    ⟨rfl, rfl, ⟨Nat.zero_le 7, rfl⟩, hr⟩, hb, rfl, rfl⟩

/-- Puts of items in range append their codewords in order (R58, R68). -/
theorem issueAllEnc_puts {s : State} {vs : List Int} (hp : s.params.Valid) (h : s.EncOpen)
    (hb : s.encPort.busy = false) (hin : ∀ v ∈ vs, InRange s.params v) :
    ∃ t, issueAllEnc (vs.map .encPut) s = .ok t ∧ t.EncOpen ∧ t.encPort.busy = false ∧
      t.writer.bits = s.writer.bits ++ cws vs := by
  induction vs generalizing s with
  | nil => exact ⟨s, rfl, h, hb, by simp [cws]⟩
  | cons v vs ih =>
    obtain ⟨hv, hvs⟩ := List.forall_mem_cons.mp hin
    obtain ⟨w, hexec, ht⟩ := exec_encPut_of_encOpen hp hv h
    have hissue := issueEnc_returned (.encPut v) s _ hb hexec rfl
    obtain ⟨t, hrest, hopen, hbusy, hbits⟩ :=
      ih (s := (s.withWriter w).withEncResult .returned) hp (h.of_took ht .returned) hb hvs
    have hw : ((s.withWriter w).withEncResult .returned).writer.bits = s.writer.bits ++ cw v := ht.spelt
    refine ⟨t, ?_, hopen, hbusy, ?_⟩
    · rw [List.map_cons, issueAllEnc, hissue, Answer.andThen_ok, hrest]
    · rw [hbits, hw, cws, cws, List.flatMap_cons, List.append_assoc]

/-- ENC.CLOSE leaves the bits appended, padded with zeros and packed, in the sink (R70, R79). -/
theorem issueEnc_encClose {s : State} (h : s.EncOpen) (hb : s.encPort.busy = false) :
    ∃ t, issueEnc .encClose s = .ok t ∧ sinkBytes t.sink.trace = packPadded s.writer.bits := by
  obtain ⟨w, hexec, -, htrace, -⟩ := exec_encClose_of_encOpen h
  refine ⟨_, issueEnc_returned .encClose s _ hb hexec rfl, ?_⟩
  rw [State.withEncResult_sink, State.withWriter_sink, htrace]
  exact (packPadded_eq_of_bytesBits (bytesBits_closedTrace h.writerOpen)).symm

end Machine

open Machine

/-- Settles O58: ENC.RST opens the writer, the puts append the codewords, ENC.CLOSE packs them. -/
theorem encodeIsPacking : Obligations.EncodeIsPacking := by
  intro s vs hp hr hb hin
  obtain ⟨s1, hrst, hopen1, hb1, hparams, hbits1⟩ := issueEnc_encRst hb hr
  rw [← hparams] at hp hin
  obtain ⟨s2, hputs, hopen2, hb2, hbits2⟩ := issueAllEnc_puts hp hopen1 hb1 hin
  obtain ⟨t, hclose, hbytes⟩ := issueEnc_encClose hopen2 hb2
  have hrun : issueAllEnc (encodeOps vs) s = .ok t := by
    simp only [encodeOps, issueAllEnc, issueAllEnc_append, hrst, hputs, hclose, Answer.andThen_ok]
  rw [encodeValues, hrun, Answer.map_ok, hbytes, hbits2, hbits1, List.nil_append]

end Sys2Proof
end

section
/-! PROOFS. DEC.STEP in ShiftingBits and ReadingSign (spec/43_decoder_fsm.md R87, R88): the transitions, and
the range of the accumulator in contract (spec/10_state.md R19). -/
namespace Sys2Proof.Machine

/-! ### The transitions -/

/-- The last magnitude bit takes the bias off (R87). -/
theorem decStep_shiftingBits_last (p : Params) (b : Bool) {d : Dec} (hst : d.st = .shiftingBits)
    (hrem : d.rem = 1) :
    decStep p b d = .quiet { d with acc := 2 * d.acc + b.toNat - 1, rem := 0, st := .readingSign } := by
  simp [decStep, hst, hrem]

/-- A magnitude bit with more to come shifts in (R87). -/
theorem decStep_shiftingBits_more (p : Params) (b : Bool) {d : Dec} (hst : d.st = .shiftingBits)
    (hrem : 1 < d.rem) :
    decStep p b d = .quiet { d with acc := 2 * d.acc + b.toNat, rem := d.rem - 1 } := by
  have hmore : d.rem - 1 ≠ 0 := by omega
  simp [decStep, hst, hmore]

/-- The sign bit completes a value (R88). -/
theorem decStep_readingSign (p : Params) (b : Bool) {d : Dec} (hst : d.st = .readingSign) :
    decStep p b d =
      .emit (if b then -(d.acc : Int) else d.acc) { d with zc := 0, st := .countingZeros } := by
  simp [decStep, hst]

/-- ShiftingBits is entered at a separator after a zero or more, with a bit to read for each of them
(R86). -/
theorem decStep_enters_shiftingBits {p : Params} {b : Bool} {d d1 : Dec} (hst : d.st ≠ .shiftingBits)
    (hstep : decStep p b d = .quiet d1) (hst1 : d1.st = .shiftingBits) : d.zc ≠ 0 ∧ d1.rem = d.zc := by
  cases h : d.st with
  | shiftingBits => exact absurd h hst
  | readingSign => rw [decStep_readingSign p b h] at hstep; cases hstep
  | countingZeros =>
    simp only [decStep, h] at hstep
    split_ifs at hstep with hzero hzc hover
    · cases hstep; cases hst1
    · cases hstep; exact ⟨hzc, rfl⟩

/-! ### The accumulator in contract -/

theorem fsmInv_of_shiftingBits {p : Params} {d : Dec} (hst : d.st = .shiftingBits) (h : FsmInv p d) :
    1 ≤ d.rem ∧ d.rem ≤ d.zc ∧ d.zc ≤ p.nbitsMax ∧
      2 ^ (d.zc - d.rem) ≤ d.acc ∧ d.acc ≤ 2 ^ (d.zc - d.rem + 1) - 1 := by
  simpa only [FsmInv, hst] using h

theorem fsmInv_of_readingSign {p : Params} {d : Dec} (hst : d.st = .readingSign) (h : FsmInv p d) :
    d.rem = 0 ∧ 1 ≤ d.zc ∧ d.zc ≤ p.nbitsMax ∧ 2 ^ d.zc - 1 ≤ d.acc ∧ d.acc ≤ 2 ^ (d.zc + 1) - 2 := by
  simpa only [FsmInv, hst] using h

/-- The accumulator never outgrows the magnitude of a `W`-bit value (R87). -/
theorem shiftedAcc_lt {p : Params} (b : Bool) {d : Dec} (hst : d.st = .shiftingBits)
    (h : FsmInv p d) : 2 * d.acc + b.toNat < 2 ^ (p.W - 1) := by
  obtain ⟨hrem, hle, hmax, -, hacc⟩ := fsmInv_of_shiftingBits hst h
  rw [Params.nbitsMax] at hmax
  have hb : b.toNat ≤ 1 := Bool.toNat_le b
  have hpos : 0 < 2 ^ (d.zc - d.rem + 1) := Nat.two_pow_pos _
  calc 2 * d.acc + b.toNat < 2 ^ (d.zc - d.rem + 1 + 1) := by rw [pow_succ]; omega
    _ ≤ 2 ^ (p.W - 1) := Nat.pow_le_pow_right (by decide) (by omega)

/-- After the last magnitude bit the accumulator holds all of the class's magnitude bits (R87). -/
theorem le_shiftedAcc_last {p : Params} (b : Bool) {d : Dec} (hst : d.st = .shiftingBits)
    (h : FsmInv p d) (hrem : d.rem = 1) : 2 ^ d.zc ≤ 2 * d.acc + b.toNat ∧ 2 ≤ 2 ^ d.zc := by
  obtain ⟨-, hle, -, hacc, -⟩ := fsmInv_of_shiftingBits hst h
  obtain ⟨z, hz⟩ : ∃ z, d.zc = z + 1 := ⟨d.zc - 1, by omega⟩
  rw [hz, hrem, Nat.add_sub_cancel] at hacc
  have hpos : 0 < 2 ^ z := Nat.two_pow_pos z
  rw [hz, pow_succ]
  omega

/-- The magnitude that waits for its sign is one the block carries, and not 0 (R88). -/
theorem readingSign_acc_bounds {p : Params} {d : Dec} (hst : d.st = .readingSign) (h : FsmInv p d) :
    1 ≤ d.acc ∧ (d.acc : Int) ≤ p.magMax := by
  obtain ⟨-, hzc, hmax, hlo, hhi⟩ := fsmInv_of_readingSign hst h
  rw [Params.nbitsMax] at hmax
  have htwo : 2 ≤ 2 ^ d.zc := Nat.le_self_pow (by omega) 2
  have hpow : 2 ^ (d.zc + 1) ≤ 2 ^ (p.W - 1) := Nat.pow_le_pow_right (by decide) (by omega)
  have hcast : ((2 ^ (p.W - 1) : Nat) : Int) = 2 ^ (p.W - 1) := Nat.cast_pow 2 (p.W - 1)
  rw [Params.magMax, ← hcast]
  rw [pow_succ] at hhi hpow
  omega

end Sys2Proof.Machine

namespace Sys2Proof
open Machine

/-- Settles O30, from the two transitions of ShiftingBits, the bounds of the accumulator and the one way into
the state. -/
theorem stepShiftingBits : Obligations.StepShiftingBits := by
  refine ⟨fun p b d hst => ⟨decStep_shiftingBits_last p b hst, decStep_shiftingBits_more p b hst, ?_⟩, ?_⟩
  · intro hinv
    obtain ⟨hrem, -⟩ := fsmInv_of_shiftingBits hst hinv
    refine ⟨hrem, shiftedAcc_lt b hst hinv, fun hlast => ?_⟩
    obtain ⟨hacc, htwo⟩ := le_shiftedAcc_last b hst hinv hlast
    omega
  · intro p b d d1 hst hstep hst1
    obtain ⟨hzc, hrem⟩ := decStep_enters_shiftingBits hst hstep hst1
    omega

/-- Settles O31, from the transition of ReadingSign and the bounds of the accumulator there. -/
theorem stepReadingSign : Obligations.StepReadingSign := by
  refine fun p d hst => ⟨decStep_readingSign p true hst, decStep_readingSign p false hst, fun hinv => ?_⟩
  obtain ⟨hpos, hmax⟩ := readingSign_acc_bounds hst hinv
  exact ⟨hpos, by constructor <;> omega, by constructor <;> omega⟩

end Sys2Proof
end

section
/-! PROOFS. decode undoes encode (spec/43_decoder_fsm.md R93): the FSM over one codeword, the loop of DEC.READ
over a stream of codewords with zeros after them, and DEC.RST and DEC.READ in decode. -/
namespace Sys2Proof

/-- Padding makes whole bytes (R35). -/
theorem eight_dvd_add_padLen (len : Nat) : 8 ∣ len + padLen len := by
  rw [padLen]
  omega

/-- The bytes of a padded packing spell the string and the padding (R58). -/
theorem bytesBits_packPadded (bits : BitString) :
    bytesBits (packPadded bits) = bits ++ List.replicate (padLen bits.length) false := by
  obtain ⟨n, hn⟩ := eight_dvd_add_padLen bits.length
  exact bytesBits_pack n _ (by rw [List.length_append, List.length_replicate, hn])

namespace Machine

/-! ### The FSM over one codeword -/

/-- What a codeword of class `k` with magnitude field `m` leaves in a unit between two codewords
(R86 to R88). -/
def Dec.afterCodeword (d : Dec) (k m : Nat) : Dec :=
  if k = 0 then d else { d with acc := 2 ^ k + m - 1, rem := 0 }

theorem Dec.BetweenCodewords.afterCodeword {d : Dec} (h : d.BetweenCodewords) (k m : Nat) :
    (d.afterCodeword k m).BetweenCodewords := by
  rw [Dec.afterCodeword]
  split <;> exact h

/-- The bits of a codeword but for the last complete no value, and the last emits the value of the fields
(R86 to R88, R56). -/
theorem codewordBits_emits (p : Params) {k m : Nat} (neg : Bool) {d : Dec} (hd : d.BetweenCodewords)
    (hk : k ≤ p.nbitsMax) (hm : m < 2 ^ k) :
    ∃ bits last d1, codewordBits k m neg = bits ++ [last] ∧ quietRun p bits d = some d1 ∧
      decStep p last d1 = .emit (codewordValue k m neg) (d.afterCodeword k m) := by
  obtain ⟨hst, hzc, -⟩ := hd
  by_cases hzero : k = 0
  · subst hzero
    exact ⟨[], true, d, rfl, rfl, by simp [decStep, hst, hzc, Dec.afterCodeword]⟩
  · refine ⟨List.replicate k false ++ true :: numBits k m, neg, _, by simp [codewordBits, hzero],
      quietRun_codeword p k m d (by omega) hk hm hst hzc, ?_⟩
    have hval : ((2 ^ k + m - 1 : Nat) : Int) = ((2 ^ k + m : Nat) : Int) - 1 :=
      Nat.cast_pred (Nat.add_pos_left (Nat.two_pow_pos k) m)
    rw [decStep_readingSign p neg rfl, hval, codewordValue, if_neg hzero, Dec.afterCodeword,
      if_neg hzero, ← hst, ← hzc]

/-- The FSM decodes what the encoder writes for an integer whose class the block carries. -/
theorem cw_emits {p : Params} {v : Int} {d : Dec} (hd : d.BetweenCodewords)
    (hv : nbits v ≤ p.nbitsMax) :
    ∃ bits last d1 d2, cw v = bits ++ [last] ∧ quietRun p bits d = some d1 ∧
      decStep p last d1 = .emit v d2 ∧ d2.BetweenCodewords := by
  obtain ⟨bits, last, d1, hbits, hquiet, hstep⟩ :=
    codewordBits_emits p (signBit v) hd hv (m := low (biased v) (nbits v))
      (Nat.mod_lt _ (Nat.two_pow_pos _))
  rw [← cw_eq_codewordBits] at hbits
  rw [codewordValue_of_fields] at hstep
  exact ⟨bits, last, d1, _, hbits, hquiet, hstep, hd.afterCodeword _ _⟩

theorem decStep_quiet_eos {p : Params} {b : Bool} {d d1 : Dec} (h : decStep p b d = .quiet d1) :
    d1.eos = d.eos := by
  rcases decStep_cases p b d with ⟨d2, hd, -, -, heos, -⟩ | ⟨v, d2, hd, -⟩ | ⟨hd, -⟩ <;>
    cases h.symm.trans hd
  exact heos

theorem decStep_emit_eos {p : Params} {b : Bool} {v : Int} {d d1 : Dec}
    (h : decStep p b d = .emit v d1) : d1.eos = d.eos := by
  rcases decStep_cases p b d with ⟨d2, hd, -⟩ | ⟨w, d2, hd, -, -, -, -, heos, -⟩ | ⟨hd, -⟩ <;>
    cases h.symm.trans hd
  exact heos

/-! ### The reader inside DEC.READ -/

/-- The reader stands before `bits` on a source that serves, with the registers of `d` but for the loaded
byte, and with this output buffer. -/
structure Reader.StandsAt (r : Reader) (p : Params) (d : Dec) (out : List Int) (bits : BitString) :
    Prop where
  regs : r.dec = { d with cur := r.dec.cur, left := r.dec.left }
  eos : d.eos = false
  left_le : r.dec.left ≤ 8
  reliable : r.source.Reliable p
  bits : r.bits = bits
  out : r.out = out

theorem Reader.StandsAt.dec_eos {r : Reader} {p : Params} {d : Dec} {out : List Int} {bits : BitString}
    (h : r.StandsAt p d out bits) : r.dec.eos = false := by
  rw [h.regs]
  exact h.eos

/-- The FSM and the output buffer move on while the reader stays. -/
theorem Reader.StandsAt.update {r : Reader} {p : Params} {d d1 : Dec} {out : List Int}
    {bits : BitString} (h : r.StandsAt p d out bits) (heos : d1.eos = d.eos) (out1 : List Int) :
    Reader.StandsAt { r with dec := { d1 with cur := r.dec.cur, left := r.dec.left }, out := out1 }
      p d1 out1 bits :=
  ⟨rfl, heos.trans h.eos, h.left_le, h.reliable, h.bits, rfl⟩

theorem Reader.standsAt_self {r : Reader} {p : Params} (hd : r.dec.BetweenCodewords)
    (hr : r.source.Reliable p) : r.StandsAt p r.dec r.out r.bits := by
  obtain ⟨-, -, hleft, heos, -⟩ := hd
  exact ⟨rfl, heos, hleft, hr, rfl, rfl⟩

/-- The loop's fuel is the bits that are there and one more. -/
theorem readFuel_eq (r : Reader) : readFuel r = r.bits.length + 1 := by
  simp [readFuel, Reader.bits]

section Loop
variable {p : Params} {r : Reader} {d d1 : Dec} {out : List Int} {bits rest : BitString} {b : Bool}
  {fuel cap n : Nat}

/-- A bit that is there is taken and goes to the FSM (R82, R89). -/
theorem readLoop_takes (h : r.StandsAt p d out (b :: rest)) (hn : n < cap) :
    ∃ r1 : Reader, readLoop p (fuel + 1) cap n r = feedBit p b n r1 (readLoop p fuel cap) ∧
      r1.StandsAt p d out rest := by
  rcases brNextBit_reliable p r h.left_le h.dec_eos h.reliable with
    ⟨hnone, -⟩ | ⟨c, r1, hbit, hbits, hout, hdec, hleft, hrel, -⟩
  · cases h.bits.symm.trans hnone
  · rw [h.bits, List.cons.injEq] at hbits
    obtain ⟨rfl, hrest⟩ := hbits
    have hregs : r1.dec = { d with cur := r1.dec.cur, left := r1.dec.left } := by
      rw [h.regs] at hdec
      exact hdec
    exact ⟨r1, by rw [readLoop, if_pos hn, hbit],
      hregs, h.eos, by omega, hrel, hrest.symm, hout.trans h.out⟩

theorem readLoop_quiet (h : r.StandsAt p d out (b :: rest)) (hstep : decStep p b d = .quiet d1)
    (hn : n < cap) :
    ∃ r1 : Reader, readLoop p (fuel + 1) cap n r = readLoop p fuel cap n r1 ∧
      r1.StandsAt p d1 out rest := by
  obtain ⟨r1, hloop, h1⟩ := readLoop_takes (fuel := fuel) h hn
  have hupd := h1.update (decStep_quiet_eos hstep) r1.out
  rw [h1.out] at hupd
  refine ⟨_, ?_, hupd⟩
  rw [hloop, feedBit, h1.regs, decStep_withLoaded, hstep]
  simp only [StepResult.withLoaded, h1.out]

theorem readLoop_emit {v : Int} (h : r.StandsAt p d out (b :: rest))
    (hstep : decStep p b d = .emit v d1) (hn : n < cap) :
    ∃ r1 : Reader, readLoop p (fuel + 1) cap n r = readLoop p fuel cap (n + 1) r1 ∧
      r1.StandsAt p d1 (writeSlot n v out) rest := by
  obtain ⟨r1, hloop, h1⟩ := readLoop_takes (fuel := fuel) h hn
  refine ⟨_, ?_, h1.update (decStep_emit_eos hstep) _⟩
  rw [hloop, feedBit, h1.regs, decStep_withLoaded, hstep]
  simp only [StepResult.withLoaded, h1.out]

/-- Bits that complete no value are taken, one after another (R89). -/
theorem readLoop_quietRun (h : r.StandsAt p d out (bits ++ rest)) (hquiet : quietRun p bits d = some d1)
    (hn : n < cap) :
    ∃ r1 : Reader, readLoop p (bits.length + fuel) cap n r = readLoop p fuel cap n r1 ∧
      r1.StandsAt p d1 out rest := by
  induction bits generalizing r d with
  | nil =>
    cases hquiet
    exact ⟨r, by rw [List.length_nil, Nat.zero_add], h⟩
  | cons b bits ih =>
    rw [quietRun] at hquiet
    cases hstep : decStep p b d with
    | quiet d2 =>
      rw [hstep] at hquiet
      obtain ⟨r2, hloop2, h2⟩ := readLoop_quiet (fuel := bits.length + fuel) h hstep hn
      obtain ⟨r1, hloop1, h1⟩ := ih h2 hquiet
      exact ⟨r1, by rw [List.length_cons, Nat.add_right_comm, hloop2, hloop1], h1⟩
    | emit v d2 => rw [hstep] at hquiet; cases hquiet
    | raised c d2 => rw [hstep] at hquiet; cases hquiet

/-- With room for it, a codeword's value is stored in the next slot (R89). -/
theorem readLoop_cw {v : Int} (h : r.StandsAt p d out (cw v ++ rest)) (hd : d.BetweenCodewords)
    (hv : nbits v ≤ p.nbitsMax) (hn : n < cap) :
    ∃ (r1 : Reader) (d1 : Dec),
      readLoop p ((cw v).length + fuel) cap n r = readLoop p fuel cap (n + 1) r1 ∧
      r1.StandsAt p d1 (writeSlot n v out) rest ∧ d1.BetweenCodewords := by
  obtain ⟨bits, last, d2, d1, hcw, hquiet, hstep, hd1⟩ := cw_emits hd hv
  rw [hcw, List.append_assoc] at h
  obtain ⟨r2, hloop2, h2⟩ := readLoop_quietRun (fuel := fuel + 1) h hquiet hn
  obtain ⟨r1, hloop1, h1⟩ := readLoop_emit (fuel := fuel) h2 hstep hn
  refine ⟨r1, d1, ?_, h1, hd1⟩
  rw [hcw, List.length_append, List.length_singleton, Nat.add_assoc, Nat.add_comm 1 fuel, hloop2, hloop1]

/-- A full buffer ends the loop before a bit is taken (R89). -/
theorem readLoop_full (hn : cap ≤ n) : readLoop p fuel cap n r = .returned n r.dec.eos r := by
  cases fuel with
  | zero => rfl
  | succ fuel => rw [readLoop, if_neg (by omega)]

/-- With no bit left the loop ends at exhaustion (R90). -/
theorem readLoop_exhausted (h : r.StandsAt p d out []) (hn : n < cap) :
    ∃ r1 : Reader, readLoop p (fuel + 1) cap n r = .returned n true r1 ∧ r1.out = out := by
  rcases brNextBit_reliable p r h.left_le h.dec_eos h.reliable with
    ⟨-, r1, hend, -, hout, -⟩ | ⟨c, r1, -, hbits, -⟩
  · exact ⟨r1, by rw [readLoop, if_pos hn, hend], hout.trans h.out⟩
  · cases h.bits.symm.trans hbits

end Loop

/-- The output buffer with values stored from slot `n` on. -/
def storedFrom (n : Nat) (vs out : List Int) : List Int := out.take n ++ vs ++ out.drop (n + vs.length)

/-- Storing values one at a time stores them all, when no slot is skipped. -/
theorem storedFrom_writeSlot {n : Nat} {out : List Int} (v : Int) (vs : List Int) (hn : n ≤ out.length) :
    storedFrom (n + 1) vs (writeSlot n v out) = storedFrom n (v :: vs) out ∧
      n + 1 ≤ (writeSlot n v out).length := by
  have hslot : writeSlot n v out = (out.take n ++ [v]) ++ out.drop (n + 1) := by simp [writeSlot]
  have hlen : (out.take n ++ [v]).length = n + 1 := by simp [hn]
  have htake : (writeSlot n v out).take (n + 1) = out.take n ++ [v] := by
    rw [hslot, List.take_left' hlen]
  have hdrop (j : Nat) : (writeSlot n v out).drop (n + 1 + j) = out.drop (n + 1 + j) := by
    rw [hslot, ← List.drop_drop, List.drop_left' hlen, List.drop_drop]
  constructor
  · rw [storedFrom, storedFrom, htake, hdrop, List.length_cons, Nat.add_right_comm n 1, Nat.add_assoc n]
    simp
  · rw [hslot, List.length_append, hlen]
    exact Nat.le_add_right _ _

/-- The loop decodes the codewords in front of the reader, as far as there is room for their values
(R89). -/
theorem readLoop_cws {p : Params} {r : Reader} {d : Dec} {out vs : List Int} {rest : BitString}
    {fuel cap n : Nat} (h : r.StandsAt p d out (cws vs ++ rest)) (hd : d.BetweenCodewords)
    (hvs : ∀ v ∈ vs, nbits v ≤ p.nbitsMax) (hn : n ≤ out.length) (hcap : n + vs.length ≤ cap) :
    ∃ (r1 : Reader) (d1 : Dec),
      readLoop p ((cws vs).length + fuel) cap n r = readLoop p fuel cap (n + vs.length) r1 ∧
      r1.StandsAt p d1 (storedFrom n vs out) rest ∧ d1.BetweenCodewords := by
  induction vs generalizing r d out n with
  | nil => exact ⟨r, d, by simp [cws], by simpa [cws, storedFrom] using h, hd⟩
  | cons v vs ih =>
    rw [List.length_cons] at hcap
    obtain ⟨hv, hvs⟩ := List.forall_mem_cons.mp hvs
    obtain ⟨hstored, hlen⟩ := storedFrom_writeSlot v vs hn
    have hcws : cws (v :: vs) = cw v ++ cws vs := List.flatMap_cons
    rw [hcws, List.append_assoc] at h
    have hroom : n < cap := by omega
    obtain ⟨r2, d2, hloop2, h2, hd2⟩ := readLoop_cw (fuel := (cws vs).length + fuel) h hd hv hroom
    obtain ⟨r1, d1, hloop1, h1, hd1⟩ := ih h2 hd2 hvs hlen (by omega)
    rw [hstored] at h1
    refine ⟨r1, d1, ?_, h1, hd1⟩
    rw [hcws, List.length_append, Nat.add_assoc, hloop2, hloop1, List.length_cons, Nat.add_right_comm,
      Nat.add_assoc]

/-- Zeros after the last value complete no other: the loop ends with the count it has (R90, R95). -/
theorem readLoop_zeros {p : Params} {r : Reader} {d : Dec} {out : List Int} {k cap n : Nat}
    (h : r.StandsAt p d out (List.replicate k false)) (hd : d.BetweenCodewords) :
    ∃ (eos : Bool) (r1 : Reader), readLoop p (k + 1) cap n r = .returned n eos r1 ∧ r1.out = out := by
  rcases Nat.lt_or_ge n cap with hn | hn
  · obtain ⟨hst, -⟩ := hd
    rw [← List.append_nil (List.replicate k false)] at h
    obtain ⟨r1, hloop, h1⟩ := readLoop_quietRun (fuel := 1) h (quietRun_zeros p k d hst) hn
    obtain ⟨r2, hend, hout⟩ := readLoop_exhausted (fuel := 0) h1 hn
    rw [List.length_replicate] at hloop
    exact ⟨true, r2, by rw [hloop, hend], hout⟩
  · exact ⟨_, r, readLoop_full hn, h.out⟩

/-- DEC.READ of at least as many values as stand before zeros returns those values and their count
(R89, R95). -/
theorem readLoop_padded_stream {p : Params} {r : Reader} {vs : List Int} {k cap : Nat}
    (hd : r.dec.BetweenCodewords) (hr : r.source.Reliable p)
    (hvs : ∀ v ∈ vs, nbits v ≤ p.nbitsMax)
    (hbits : r.bits = cws vs ++ List.replicate k false) (hcap : vs.length ≤ cap) :
    ∃ (eos : Bool) (r1 : Reader), readLoop p (readFuel r) cap 0 r = .returned vs.length eos r1 ∧
      r1.out.take vs.length = vs := by
  have h := Reader.standsAt_self hd hr
  rw [hbits] at h
  obtain ⟨r2, d2, hloop2, h2, hd2⟩ :=
    readLoop_cws (fuel := k + 1) (cap := cap) h hd hvs (Nat.zero_le _) (by omega)
  obtain ⟨eos, r1, hloop1, hout⟩ := readLoop_zeros (cap := cap) (n := 0 + vs.length) h2 hd2
  refine ⟨eos, r1, ?_, ?_⟩
  · rw [readFuel_eq, hbits, List.length_append, List.length_replicate, Nat.add_assoc, hloop2, hloop1,
      Nat.zero_add]
  · rw [hout, storedFrom, List.take_zero, List.nil_append, List.take_left]

/-! ### The commands of unit DEC in decode -/

/-- DEC.READ between two codewords runs its loop (R89). -/
theorem exec_decRead_between {s : State} (cap : Nat) (hd : s.dec.BetweenCodewords) :
    exec (.decRead cap) s = finishDec s (readLoop s.params (readFuel s.reader) cap 0 s.reader) := by
  obtain ⟨hst, -, hleft, -, hfault⟩ := hd
  have hlegal : s.dec.illegal = false := by simp [Dec.illegal, hst, hleft]
  simp [exec, execDecRead, hfault, hlegal]

/-- decode begins between two codewords, with all of the bytes before the reader (R92). -/
theorem startDecoding_between {bytes : List Byte} {s : State} (hb : s.decPort.busy = false)
    (hr : s.source.Reliable s.params) :
    ∃ t, startDecoding bytes s = .ok t ∧ t.dec.BetweenCodewords ∧ t.source.Reliable t.params ∧
      t.reader.bits = bytesBits bytes ∧ t.decPort.busy = false ∧ t.params = s.params := by
  obtain ⟨t, hexec, hstart⟩ := startDecoding_ready bytes s hb
  cases hexec
  exact ⟨_, hstart, ⟨rfl, rfl, Nat.zero_le 8, rfl, rfl⟩, hr, rfl, hb, rfl⟩

/-- decode gives the values whose codewords stand before zeros (R92, R95). -/
theorem decodeValues_padded_stream {bytes : List Byte} {s : State} {vs : List Int} {k m : Nat}
    (hb : s.decPort.busy = false) (hr : s.source.Reliable s.params)
    (hvs : ∀ v ∈ vs, nbits v ≤ s.params.nbitsMax)
    (hbits : bytesBits bytes = cws vs ++ List.replicate k false) (hm : vs.length ≤ m) :
    decodeValues bytes m s = .ok (vs, vs.length) := by
  obtain ⟨t, hstart, hd, hrel, htbits, hbusy, hparams⟩ := startDecoding_between (bytes := bytes) hb hr
  rw [← hparams] at hvs
  obtain ⟨eos, r, hloop, hout⟩ :=
    readLoop_padded_stream (r := t.reader) hd hrel hvs (htbits.trans hbits) hm
  have hexec : exec (.decRead m) t = .next ((t.withReader r).withDecResult (.read vs.length eos)) := by
    rw [exec_decRead_between m hd, hloop, finishDec]
  rw [decodeValues, hstart, Answer.andThen_ok, issueDec_read _ t _ _ _ hbusy hexec rfl, Answer.map_ok]
  simp [readBack, DecResult.count, hout]

end Machine

open Machine

/-- Settles O59: encode packs the codewords and pads them with zeros, and the loop of DEC.READ gives back the
values and takes the padding for none. -/
theorem roundTrip : Obligations.RoundTrip := by
  intro s vs m hp hsink hsource hencBusy hdecBusy hin hm
  exact ⟨packPadded (cws vs), encodeIsPacking s vs hp hsink hencBusy hin,
    decodeValues_padded_stream hdecBusy hsource (fun v hv => nbits_le_nbitsMax hp (hin v hv))
      (bytesBits_packPadded _) hm⟩

end Sys2Proof
end

section
/-! PROOFS. Codewords on the wire (spec/30_encoding.md R50 to R57, R63, R66): the separator behind the
leading zeros, what the decoder reads off the front of a bit string, and the encoder's output decoded. -/
namespace Sys2Proof

/-! ### The separator -/

@[simp] theorem splitZeros_replicate_true (k : Nat) (rest : BitString) :
    splitZeros (List.replicate k false ++ true :: rest) = some (k, rest) := by
  induction k with
  | zero => rfl
  | succ k ih => simp [List.replicate_succ, splitZeros, ih]

/-- The leading zeros end at the first 1 (R57). -/
theorem eq_of_splitZeros_some {bits rest : BitString} {k : Nat} (h : splitZeros bits = some (k, rest)) :
    bits = List.replicate k false ++ true :: rest := by
  induction bits generalizing k with
  | nil => cases h
  | cons b bits ih =>
    cases b with
    | true => cases h; rfl
    | false =>
      obtain ⟨⟨j, rest1⟩, hsplit, heq⟩ := Option.map_eq_some_iff.mp h
      cases heq
      rw [ih hsplit, List.replicate_succ, List.cons_append]

/-- Without a separator the bits are zeros. -/
theorem eq_of_splitZeros_none {bits : BitString} (h : splitZeros bits = none) :
    bits = List.replicate bits.length false := by
  induction bits with
  | nil => rfl
  | cons b bits ih =>
    cases b with
    | true => cases h
    | false =>
      rw [List.length_cons, List.replicate_succ, ← ih (Option.map_eq_none_iff.mp h)]

/-! ### The fields of a codeword -/

theorem codewordBits_of_pos {k : Nat} (m : Nat) (neg : Bool) (hk : 1 ≤ k) :
    codewordBits k m neg = List.replicate k false ++ true :: (numBits k m ++ [neg]) :=
  if_neg (by omega)

/-- Bits behind `k` leading zeros and the separator are a field and a sign when there are enough of
them (R50). -/
theorem codewordBits_bitsNat {k : Nat} {field : BitString} (neg : Bool) (hk : 1 ≤ k)
    (hlen : field.length = k) :
    codewordBits k (bitsNat field) neg = List.replicate k false ++ true :: (field ++ [neg]) := by
  subst hlen
  rw [codewordBits_of_pos _ _ hk, numBits_bitsNat]

/-- The separator's place shows the class. -/
theorem splitZeros_codewordBits_append (k m : Nat) (neg : Bool) (rest : BitString) :
    ∃ tail, splitZeros (codewordBits k m neg ++ rest) = some (k, tail) := by
  rw [codewordBits]
  split
  case isTrue hk => exact ⟨rest, by rw [hk]; rfl⟩
  case isFalse => exact ⟨_, by rw [List.append_assoc, List.cons_append, splitZeros_replicate_true]⟩

/-- A codeword row is the row of its class with its fields (R53). -/
theorem codewordInstr_of_codewordFields {i : Instr} {k m : Nat} {neg : Bool}
    (h : codewordFields i = some (k, m, neg)) : codewordInstr k m neg = some i ∧ m < 2 ^ k := by
  cases i <;> cases h
  case cwK0.refl => exact ⟨rfl, Nat.one_pos⟩
  all_goals exact ⟨by simp [codewordInstr], BitVec.isLt _⟩

/-- The row of a class holds the fields, as far as the class has them (R53). -/
theorem codewordFields_of_codewordInstr {i : Instr} {k m : Nat} {neg : Bool} (hk : k ≠ 0)
    (hm : m < 2 ^ k) (h : codewordInstr k m neg = some i) : codewordFields i = some (k, m, neg) := by
  unfold codewordInstr at h
  split at h <;> cases h
  · exact absurd rfl hk
  all_goals simp only [codewordFields, BitVec.toNat_ofNat, Nat.mod_eq_of_lt hm]

/-! ### Decoding -/

theorem decodeCodeword_true (rest : BitString) : decodeCodeword (true :: rest) = .ok (.cwK0, rest) := rfl

/-- What is read behind `k` leading zeros and the separator: a field, a sign, and what is left (R57). -/
theorem decodeCodeword_prefix {k : Nat} {field rest : BitString} {neg : Bool} {i : Instr} (hk : k ≠ 0)
    (hlen : field.length = k) (hi : codewordInstr k (bitsNat field) neg = some i) :
    decodeCodeword (List.replicate k false ++ true :: (field ++ neg :: rest)) = .ok (i, rest) := by
  have htake : (field ++ neg :: rest).take k = field := List.take_left' hlen
  have hdrop : (field ++ neg :: rest).drop k = neg :: rest := List.drop_left' hlen
  have hafter : (field ++ neg :: rest).drop (k + 1) = rest := by
    rw [← List.drop_drop, hdrop, List.drop_one, List.tail_cons]
  have henough : ¬ (field ++ neg :: rest).length < k + 1 := by
    rw [List.length_append, List.length_cons]
    omega
  rw [decodeCodeword, splitZeros_replicate_true]
  simp only [if_neg hk, htake, hdrop, List.headD_cons, hi, if_neg henough, hafter]

/-- Settles O4: the leading zeros show the class, and the class the number of bits. -/
theorem codewordLengthIsFound : Obligations.CodewordLengthIsFound := by
  intro i k m neg rest hfields
  obtain ⟨hinstr, hm⟩ := codewordInstr_of_codewordFields hfields
  by_cases hk : k = 0
  · subst hk
    cases hinstr
    exact decodeCodeword_true rest
  · have hnum : bitsNat (numBits k m) = m := by rw [bitsNat_numBits, low, Nat.mod_eq_of_lt hm]
    rw [codewordBits_of_pos m neg (by omega), List.append_assoc, List.cons_append, List.append_assoc,
      List.singleton_append]
    exact decodeCodeword_prefix hk (numBits_length k m) (by rw [hnum, hinstr])

/-- Settles O5: the leading zeros, the separator, the field and the sign that were read stand in front. -/
theorem decodedCodewordStandsInFront : Obligations.DecodedCodewordStandsInFront := by
  intro bits rest i h
  rw [decodeCodeword] at h
  cases hsplit : splitZeros bits with
  | none => rw [hsplit] at h; cases h
  | some kr =>
    obtain ⟨k, tail⟩ := kr
    rw [eq_of_splitZeros_some hsplit]
    simp only [hsplit] at h
    by_cases hk : k = 0
    · rw [if_pos hk] at h
      cases h
      exact ⟨0, 0, false, rfl, by rw [hk]; rfl⟩
    · rw [if_neg hk] at h
      cases hinstr : codewordInstr k (bitsNat (tail.take k)) ((tail.drop k).headD false) with
      | none => rw [hinstr] at h; cases h
      | some j =>
        simp only [hinstr] at h
        split at h
        · cases h
        · cases h
          have hlen : (tail.take k).length = k := List.length_take_of_le (by omega)
          have hlt : bitsNat (tail.take k) < 2 ^ k := by simpa only [hlen] using bitsNat_lt (tail.take k)
          refine ⟨k, _, _, codewordFields_of_codewordInstr hk hlt hinstr, ?_⟩
          obtain ⟨neg, hdrop⟩ : ∃ neg, tail.drop k = neg :: tail.drop (k + 1) :=
            ⟨_, List.drop_eq_getElem_cons (by omega)⟩
          have htail : tail = tail.take k ++ neg :: tail.drop (k + 1) := by
            rw [← hdrop, List.take_append_drop]
          rw [codewordBits_bitsNat _ (by omega) hlen, hdrop, List.headD_cons, List.append_assoc,
            List.cons_append, List.append_assoc, List.singleton_append, ← htail]

/-! ### The command ports -/

/-- Settles O1, code by code. -/
theorem commandCodesDecode : Obligations.CommandCodesDecode :=
  fun _ _ => ⟨rfl, rfl, rfl, rfl, rfl, rfl, rfl, rfl⟩

/-- Settles O2, by running the decoder on the words. -/
theorem sampleWordsDecode : Obligations.SampleWordsDecode := by
  refine ⟨?_, ?_, ?_, ?_, ?_⟩ <;> rfl

/-- An item that fits the port stands on it in two's complement (R8, D3). -/
theorem portItem_itemPort {p : Params} {item : Int} (hp : p.Valid) (h : FitsValue p item) :
    portItem p (itemPort p item) = item := by
  obtain ⟨hW, -, -⟩ := hp
  obtain ⟨hlo, hhi⟩ := h
  have hpow : (2 : Int) ^ p.W = 2 * 2 ^ (p.W - 1) := by rw [← pow_succ']; congr 1; omega
  rw [portItem, itemPort, BitVec.ofNat_toNat, BitVec.setWidth_eq, BitVec.toInt_ofInt]
  exact Int.bmod_eq_of_le_mul_two (by push_cast; omega) (by push_cast; omega)

theorem portCap_of_lt {p : Params} {cap : Nat} (h : cap < 2 ^ p.CAPW) : portCap p cap = cap :=
  Nat.mod_eq_of_lt h

/-- A codeword row is put on the wire as the bits of its fields (R50). -/
theorem encode_codeword (p : Params) {i : Instr} {k m : Nat} {neg : Bool}
    (h : codewordFields i = some (k, m, neg)) : encode p i = .codeword (codewordBits k m neg) := by
  cases i <;> cases h <;> rfl

/-- Settles O3: the commands by their codes and ports, the codeword rows by the length the decoder finds. -/
theorem decodeEncode : Obligations.DecodeEncode := by
  intro p i hp hfits
  cases hfields : codewordFields i with
  | some f =>
    obtain ⟨k, m, neg⟩ := f
    have h := codewordLengthIsFound i k m neg [] hfields
    rw [List.append_nil] at h
    rw [encode_codeword p hfields, decode, h]
  | none =>
    cases i <;> cases hfields
    case none.encPut.refl item => simp [encode, decode, decodeEncCmd, portItem_itemPort hp hfits]
    case none.decRead.refl cap => simp [encode, decode, decodeDecCmd, portCap_of_lt hfits, Except.map]
    all_goals rfl

/-! ### The rows of the opcode table -/

/-- A number below `2^n` whose bits under the full mask are 1 is 1, behind `n` bits that the mask skips
(R66). -/
theorem eq_one_of_mask {x y n : Nat} (hx : x < 2 ^ n) (hy : y < 2 ^ n)
    (h : (x * 2 ^ n + y) &&& ((2 ^ n - 1) <<< n) = 1 <<< n) : x = 1 := by
  have hhigh : (x * 2 ^ n + y) >>> n = x := by
    rw [Nat.shiftRight_eq_div_pow, Nat.mul_comm, Nat.mul_add_div (Nat.two_pow_pos n),
      Nat.div_eq_of_lt hy, Nat.add_zero]
  have hand := congrArg (· >>> n) h
  simp only [Nat.shiftRight_and_distrib, Nat.shiftLeft_shiftRight, hhigh,
    Nat.and_two_pow_sub_one_eq_mod, Nat.mod_eq_of_lt hx] at hand
  exact hand

theorem numBits_succ_one (k : Nat) : numBits (k + 1) 1 = List.replicate k false ++ [true] := by
  rw [numBits_add k 1 1, ← numBits_zero_value]
  rfl

/-- The row of a class selects only bit strings whose separator stands where the class has it (R66). -/
theorem splitZeros_of_codewordRow {k : Nat} {bits : BitString}
    (hlen : (codewordRow k).length ≤ bits.length)
    (h : bitsNat (bits.take (codewordRow k).length) &&& (codewordRow k).maskBits =
      (codewordRow k).matchBits) : ∃ rest, splitZeros bits = some (k, rest) := by
  by_cases hk : k = 0
  · subst hk
    cases bits with
    | nil => exact absurd hlen (by decide)
    | cons b bits =>
      cases b with
      | true => exact ⟨bits, rfl⟩
      | false => simp [codewordRow, bitsNat] at h
  · simp only [codewordRow, if_neg hk] at hlen h
    have hsplit : bits.take (2 * k + 2) = bits.take (k + 1) ++ (bits.drop (k + 1)).take (k + 1) := by
      rw [← List.take_add]; congr 1; omega
    have hfront : (bits.take (k + 1)).length = k + 1 := List.length_take_of_le (by omega)
    have hback : ((bits.drop (k + 1)).take (k + 1)).length = k + 1 :=
      List.length_take_of_le (by rw [List.length_drop]; omega)
    have hone : bitsNat (bits.take (k + 1)) = 1 := by
      have hx := bitsNat_lt (bits.take (k + 1))
      have hy := bitsNat_lt ((bits.drop (k + 1)).take (k + 1))
      rw [hsplit, bitsNat_append, hback] at h
      rw [hfront] at hx
      rw [hback] at hy
      exact eq_one_of_mask hx hy h
    have hbits : bits = List.replicate k false ++ true :: bits.drop (k + 1) := by
      conv_lhs => rw [← List.take_append_drop (k + 1) bits, ← numBits_bitsNat (bits.take (k + 1)), hone,
        hfront, numBits_succ_one, List.append_assoc, List.singleton_append]
    exact ⟨_, by rw [hbits, splitZeros_replicate_true]⟩

/-- Settles O6: a bit string has one separator. -/
theorem codewordRowsDoNotOverlap : Obligations.CodewordRowsDoNotOverlap := by
  intro k j bits hk hj hmatchk hmatchj
  obtain ⟨restk, hsplitk⟩ := splitZeros_of_codewordRow hk hmatchk
  obtain ⟨restj, hsplitj⟩ := splitZeros_of_codewordRow hj hmatchj
  cases hsplitk.symm.trans hsplitj
  rfl

/-! ### The codewords of the integers -/

/-- Settles O10: the leading 1 and the field are the biased magnitude. -/
theorem codewordAsNumber : Obligations.CodewordAsNumber := by
  intro n hn
  have hk : 1 ≤ nbits n := Nat.one_le_iff_ne_zero.mpr (mt (nbits_eq_zero_iff n).mp hn)
  have hlow : low (low (biased n) (nbits n)) (nbits n) = low (biased n) (nbits n) := Nat.mod_mod _ _
  have hbiased := biased_eq_leadingOne_add_field n
  rw [cw_eq_codewordBits, Laws.TableRow.bitsNat_codewordBits _ _ _ hk, hlow, pow_succ]
  omega

/-- Settles O11: the bounds of the biased magnitude, less the bias. -/
theorem classOfAnInteger : Obligations.ClassOfAnInteger := by
  refine ⟨fun n k => ?_, cw_eq_codewordBits⟩
  have hpow : 0 < 2 ^ k := Nat.two_pow_pos k
  rw [nbits_eq_iff, biased, magnitude, pow_succ]
  omega

/-- Different integers have different codewords. -/
theorem cw_injective {a b : Int} (h : cw a = cw b) : a = b := by
  have hnum : ∀ n : Int, bitsNat (cw n) = if n = 0 then 1 else 2 * (n.natAbs + 1) + (signBit n).toNat := by
    intro n
    split
    case isTrue hn => rw [hn]; rfl
    case isFalse hn => exact codewordAsNumber n hn
  have heq := congrArg bitsNat h
  rw [hnum, hnum] at heq
  have ha := Bool.toNat_le (signBit a)
  have hb := Bool.toNat_le (signBit b)
  split_ifs at heq with hza hzb hzb
  · rw [hza, hzb]
  · omega
  · omega
  · have hnat : (signBit a).toNat = (signBit b).toNat := by omega
    have hsign : signBit a = signBit b := by
      rw [← Bool.ofNat_toNat (signBit a), hnat, Bool.ofNat_toNat]
    rw [signBit, signBit, decide_eq_decide] at hsign
    omega

/-- Settles O7: the fronts show the classes, so the codewords are equally long and equal. -/
theorem codewordsArePrefixFree : Obligations.CodewordsArePrefixFree := by
  intro a b h
  obtain ⟨tail, htail⟩ := h
  have hclass : nbits a = nbits b := by
    obtain ⟨ra, ha⟩ := splitZeros_codewordBits_append (nbits a) (low (biased a) (nbits a)) (signBit a) tail
    obtain ⟨rb, hb⟩ := splitZeros_codewordBits_append (nbits b) (low (biased b) (nbits b)) (signBit b) []
    rw [← cw_eq_codewordBits, htail] at ha
    rw [← cw_eq_codewordBits, List.append_nil] at hb
    exact congrArg Prod.fst (Option.some.inj (ha.symm.trans hb))
  have hlen : (cw a).length = (cw b).length := by
    simp only [cw_length, ← nbits_eq_zero_iff, hclass]
  exact cw_injective (List.IsPrefix.eq_of_length ⟨tail, htail⟩ hlen)

/-- With `k` leading zeros and a separator begins a codeword, or a part of one (R55). -/
theorem exists_cw_of_prefix (k : Nat) (rest : BitString) :
    (∃ (v : Int) (rest1 : BitString), List.replicate k false ++ true :: rest = cw v ++ rest1 ∧
      rest1.length ≤ rest.length) ∨
    (∃ v : Int, List.replicate k false ++ true :: rest <+: cw v ∧
      List.replicate k false ++ true :: rest ≠ cw v) := by
  by_cases hk : k = 0
  · exact .inl ⟨0, rest, by rw [hk]; rfl, Nat.le_refl _⟩
  have hcw (field : BitString) (neg : Bool) (hlen : field.length = k) :
      ∃ v : Int, cw v = List.replicate k false ++ true :: (field ++ [neg]) :=
    ⟨codewordValue k (bitsNat field) neg, by
      rw [cw_codewordValue neg (by omega) (by simpa only [hlen] using bitsNat_lt field),
        codewordBits_bitsNat neg (by omega) hlen]⟩
  rcases Nat.lt_or_ge k rest.length with hlong | hshort
  · left
    obtain ⟨v, hv⟩ := hcw (rest.take k) rest[k] (List.length_take_of_le (by omega))
    refine ⟨v, rest.drop (k + 1), ?_, by rw [List.length_drop]; omega⟩
    rw [hv, List.append_assoc, List.cons_append, List.append_assoc, List.singleton_append,
      ← List.drop_eq_getElem_cons hlong, List.take_append_drop]
  · right
    obtain ⟨v, hv⟩ := hcw (rest ++ List.replicate (k - rest.length) false) false (by simp; omega)
    rw [List.append_assoc] at hv
    have hcut : List.replicate k false ++ true :: rest ++
        (List.replicate (k - rest.length) false ++ [false]) = cw v := by
      rw [hv, List.append_assoc, List.cons_append]
    refine ⟨v, ⟨_, hcut⟩, fun heq => ?_⟩
    have hlen := congrArg List.length (hcut.trans heq.symm)
    simp at hlen

/-- Zeros only are a part of the codeword of a class with that many zeros (R55). -/
theorem exists_cw_of_zeros (k : Nat) :
    ∃ v : Int, List.replicate k false <+: cw v ∧ List.replicate k false ≠ cw v := by
  by_cases hk : k = 0
  · exact ⟨0, by rw [hk]; exact List.nil_prefix, by rw [hk]; decide⟩
  · have hcw := cw_codewordValue false (by omega) (Nat.two_pow_pos k)
    rw [codewordBits_of_pos 0 false (by omega)] at hcw
    refine ⟨codewordValue k 0 false, ⟨_, hcw.symm⟩, fun heq => ?_⟩
    simpa using congrArg List.length (heq.trans hcw)

/-- Settles O8, by codewords off the front: zeros only are a part of a codeword, and with a
separator begins a codeword or a part of one. -/
theorem codeIsComplete : Obligations.CodeIsComplete := by
  intro bits
  induction hn : bits.length using Nat.strong_induction_on generalizing bits with
  | h n ih =>
    cases hsplit : splitZeros bits with
    | none =>
      obtain ⟨v, hprefix, hne⟩ := exists_cw_of_zeros bits.length
      rw [← eq_of_splitZeros_none hsplit] at hprefix hne
      exact ⟨[], bits, v, rfl, hprefix, hne⟩
    | some kr =>
      obtain ⟨k, rest⟩ := kr
      have hbits := eq_of_splitZeros_some hsplit
      rcases exists_cw_of_prefix k rest with ⟨v, rest1, heq, hle⟩ | ⟨v, hprefix, hne⟩
      · have hlt : rest1.length < n := by
          rw [← hn, hbits, List.length_append, List.length_cons]
          omega
        obtain ⟨items, tail, w, hrest, hprefix, hne⟩ := ih rest1.length hlt rest1 rfl
        refine ⟨v :: items, tail, w, ?_, hprefix, hne⟩
        rw [hbits, heq, hrest, ← List.append_assoc]
        rfl
      · rw [← hbits] at hprefix hne
        exact ⟨[], bits, v, rfl, hprefix, hne⟩

end Sys2Proof
end

section
/-! PROOFS. The writer (spec/41_bitwriter.md R76 to R80): the writer's law, what appends of the same bits have
in common, and the chunked append as an observer sees it. -/
namespace Sys2Proof.Machine

/-! ### The writer's law -/

/-- Settles O15: whole bytes are written as soon as they are full, so what is pending is the rest of the count
of bits by 8. -/
theorem writerLaw : Obligations.WriterLaw := by
  intro p bits w ho hr
  obtain ⟨w1, hok, ht⟩ := bwBits_took bits ho hr
  obtain ⟨hpos, -⟩ := ht.isOpen
  obtain ⟨bytes, htrace, hlen⟩ := ht.written
  exact ⟨w1, hok, ht.isOpen, ht.spelt, by omega, ⟨bytes, htrace, by omega⟩, ht.past, ht.closed, ht.fault,
    ht.cause⟩

/-! ### Appends of the same bits -/

/-- Settles O13: the numeral of a pattern has the bits below the count and no others. -/
theorem appendIgnoresHighBits : Obligations.AppendIgnoresHighBits := by
  intro p pattern count w
  constructor
  · rw [bwAppend, bwAppend, numBits_low]
  · rw [bwAppend_eq_bits p pattern 0 w (Nat.zero_le _), numBits_zero, bwBits_nil]

/-- A put whose codeword is the numeral of a pattern is one append of that pattern (R69). -/
theorem putBits_eq_bwAppend {p : Params} {item : Int} {pattern count : Nat} (w : Writer)
    (hcw : cw item = numBits count pattern) (hcount : 1 ≤ count) (hclass : nbits item ≤ count)
    (hPW : count ≤ p.PW) : putBits p item w = bwAppend p pattern count w := by
  rw [putBits_eq_cw p item w (hcount.trans hPW) (hclass.trans hPW), hcw,
    bwAppend_eq_bits p pattern count w hPW]

/-- Settles O19: the constants are the codewords of 0, 1 and -1 as numbers. -/
theorem fastPathIsUnobservable : Obligations.FastPathIsUnobservable := by
  intro p w hPW
  exact ⟨putBits_eq_bwAppend w (by decide) (by decide) (by decide) (by omega),
    putBits_eq_bwAppend w (by decide) (by decide) (by decide) hPW,
    putBits_eq_bwAppend w (by decide) (by decide) (by decide) hPW⟩

/-! ### The chunked append -/

theorem sinkDone_andThen (e : Enc) (r : SinkAnswer × Sink) (f : Sink → BwResult) (g : Writer → BwResult) :
    (sinkDone e r f).andThen g = sinkDone e r fun k => (f k).andThen g := by
  obtain ⟨answer, k⟩ := r
  cases answer <;> rfl

/-- One call of the sink made for two pending bytes is seen alike, if what goes on after it is (R78). -/
theorem SameSeen.sinkDone {e1 e2 : Enc} {r : SinkAnswer × Sink} {f g : Sink → BwResult}
    (hfault : e1.fault = e2.fault) (hcause : e1.cause = e2.cause) (hclosed : e1.closed = e2.closed)
    (h : ∀ k, SameSeen (f k) (g k)) : SameSeen (sinkDone e1 r f) (sinkDone e2 r g) := by
  obtain ⟨answer, k⟩ := r
  cases answer with
  | ok => exact h k
  | never => exact ⟨rfl, hfault, hcause, hclosed⟩
  | fail =>
    refine ⟨rfl, rfl, ?_⟩
    simp only [encRaise, hfault]
    split <;> simp [hfault, hcause, hclosed]

/-- ORing in the bits of a numeral one place lower appends a bit to the numeral (R78). -/
theorem ofNat_shift_or_bitAt (x s : Nat) (b : Bool) :
    BitVec.ofNat 8 (x <<< (s + 1)) ||| bitAt b s = BitVec.ofNat 8 ((2 * x + b.toNat) <<< s) := by
  have hbit : bitAt b s = BitVec.ofNat 8 (b.toNat <<< s) := by
    cases b
    · simp [bitAt]
    · apply BitVec.eq_of_toNat_eq
      simp [bitAt]
  have hor : 2 * x + b.toNat = x <<< 1 ||| b.toNat := by
    rw [← Nat.shiftLeft_add_eq_or_of_lt (by cases b <;> decide), Nat.shiftLeft_eq, pow_one, Nat.mul_comm]
  rw [hbit, hor, ← BitVec.ofNat_or, Nat.shiftLeft_or_distrib, ← Nat.shiftLeft_add, Nat.add_comm 1 s]

/-- Bits that do not fill the pending byte go into it as one number (R78). -/
theorem bwBits_short (p : Params) {bits : BitString} {w : Writer} (h : bits.length < 8 - w.enc.pos) :
    bwBits p bits w =
      .ok { w with
        enc := { w.enc with
          acc := w.enc.acc ||| BitVec.ofNat 8 (bitsNat bits <<< (8 - w.enc.pos - bits.length)),
          pos := w.enc.pos + bits.length } } := by
  induction bits using List.reverseRecOn with
  | nil => simp
  | append_singleton bits b ih =>
    rw [List.length_append, List.length_singleton] at h
    have hplace : 7 - (w.enc.pos + bits.length) = 8 - w.enc.pos - (bits.length + 1) := by omega
    have hshift : 8 - w.enc.pos - bits.length = 8 - w.enc.pos - (bits.length + 1) + 1 := by omega
    rw [bwBits_append, ih (by omega), andThen_ok, bwBits_cons, bwBit]
    simp only []
    rw [if_neg (by omega), andThen_ok, bwBits_nil, BitVec.or_assoc, hplace, hshift, ofNat_shift_or_bitAt,
      bitsNat_append_bit, List.length_append, List.length_singleton, Nat.add_assoc]

/-- Bits that fill the pending byte write it with their number in its low places (R78). -/
theorem bwBits_fill (p : Params) {bits : BitString} {w : Writer} (hpos : w.enc.pos ≤ 7)
    (h : bits.length = 8 - w.enc.pos) :
    bwBits p bits w =
      sinkDone { w.enc with acc := w.enc.acc ||| BitVec.ofNat 8 (bitsNat bits), pos := 8 }
        (sinkWrite p (w.enc.acc ||| BitVec.ofNat 8 (bitsNat bits)) w.sink)
        fun k => .ok { enc := { w.enc with acc := 0, pos := 0 }, sink := k } := by
  rcases List.eq_nil_or_concat bits with rfl | ⟨bits, b, rfl⟩
  · rw [List.length_nil] at h
    omega
  · rw [List.concat_eq_append, List.length_append, List.length_singleton] at h
    have hlast : w.enc.pos + bits.length = 7 := by omega
    have hshift : 8 - w.enc.pos - bits.length = 0 + 1 := by omega
    rw [List.concat_eq_append, bwBits_append, bwBits_short p (by omega), andThen_ok, bwBits_cons, bwBit]
    simp only [hlast, hshift, Nat.sub_self, BitVec.or_assoc, ofNat_shift_or_bitAt, Nat.shiftLeft_zero,
      if_true, sinkDone_andThen, andThen_ok, bwBits_nil, bitsNat_append_bit]

/-- The whole intermediate bytes and the bits after them, from an empty byte (R78 (b), (c)). -/
theorem bwWholeBytes_sameSeen (p : Params) (v n : Nat) {rest : Nat} (hrest : rest < 8) (e : Enc) (k : Sink) :
    SameSeen (bwBits p (numBits (8 * n + rest) v) { enc := { e with acc := 0, pos := 0 }, sink := k })
      (bwWholeBytes p v n rest { enc := e, sink := k }) := by
  induction n generalizing k with
  | zero =>
    have hlow : low v rest <<< (8 - rest) = bitsNat (numBits rest v) <<< (8 - rest) := by
      rw [bitsNat_numBits]
    rw [Nat.mul_zero, Nat.zero_add, bwBits_short p (by simpa using hrest), bwWholeBytes, hlow]
    simp [SameSeen]
  | succ n ih =>
    have hsplit : numBits (8 * (n + 1) + rest) v =
        numBits 8 (v >>> (8 * n + rest)) ++ numBits (8 * n + rest) v := by
      rw [← numBits_add]; congr 1; omega
    have hbyte : BitVec.ofNat 8 (bitsNat (numBits 8 (v >>> (8 * n + rest)))) =
        BitVec.ofNat 8 (v >>> (8 * n + rest)) := by
      apply BitVec.eq_of_toNat_eq
      simp [bitsNat_numBits, low]
    have hfill := bwBits_fill p (w := { enc := { e with acc := 0, pos := 0 }, sink := k }) (Nat.zero_le 7)
      (numBits_length 8 (v >>> (8 * n + rest)))
    rw [hsplit, bwBits_append, hfill, sinkDone_andThen, bwWholeBytes, hbyte]
    simp only [BitVec.ofNat_eq_ofNat, BitVec.zero_or]
    exact SameSeen.sinkDone rfl rfl rfl ih

/-- Settles O14: the bits that complete the pending byte, the whole bytes and the bits after them. -/
theorem chunkedAppendIsSeenAsBitwise : Obligations.ChunkedAppendIsSeenAsBitwise := by
  intro p pattern count w ho
  obtain ⟨hpos, -⟩ := ho
  rw [bwAppend, bwAppendChunked]
  simp only []
  by_cases hPW : p.PW < count
  · rw [if_pos hPW, if_pos hPW]
    rfl
  rw [if_neg hPW, if_neg hPW, ← numBits_low]
  have hv : low pattern count < 2 ^ count := Nat.mod_lt _ (Nat.two_pow_pos count)
  generalize low pattern count = v at hv
  by_cases hshort : count < 8 - w.enc.pos
  · rw [if_pos hshort, bwBits_short p (by rw [numBits_length]; exact hshort), bitsNat_numBits, numBits_length,
      low, Nat.mod_eq_of_lt hv]
    rfl
  · rw [if_neg hshort]
    obtain ⟨more, hmore⟩ : ∃ more, count = 8 - w.enc.pos + more := ⟨count - (8 - w.enc.pos), by omega⟩
    have hfront : v >>> more < 2 ^ (8 - w.enc.pos) := by
      rw [Nat.shiftRight_eq_div_pow]
      exact Nat.div_lt_of_lt_mul (by rwa [← pow_add, Nat.add_comm, ← hmore])
    have hafter : count - (8 - w.enc.pos) = more := by omega
    rw [hafter, hmore, numBits_add, bwBits_append, bwBits_fill p hpos (numBits_length _ _), sinkDone_andThen,
      bitsNat_numBits, low, Nat.mod_eq_of_lt hfront]
    refine SameSeen.sinkDone rfl rfl rfl fun k => ?_
    have h := bwWholeBytes_sameSeen p v (more / 8) (Nat.mod_lt more (by decide)) w.enc k
    rwa [Nat.div_add_mod] at h

end Sys2Proof.Machine
end

section
/-! PROOFS. The commands of unit ENC (spec/40_codeword_encoder.md R68, R70; spec/70_reset_and_hazards.md R123):
what the micro-operations keep of unit and sink however they end, and from that the frame, the refusals and the
faults of ENC.PUT and ENC.CLOSE. -/
namespace Sys2Proof.Machine

/-! ### What a micro-operation keeps -/

/-- A sink after some calls: it took more entries, and gave the first of its planned answers (R21). -/
structure Sink.Grew (k k1 : Sink) : Prop where
  past : k1.past = k.past
  trace : k.trace <+: k1.trace
  plan : k1.plan <:+ k.plan

theorem Sink.Grew.refl (k : Sink) : k.Grew k := ⟨rfl, List.prefix_rfl, List.suffix_rfl⟩

theorem Sink.Grew.trans {k k1 k2 : Sink} (h1 : k.Grew k1) (h2 : k1.Grew k2) : k.Grew k2 :=
  ⟨h2.past.trans h1.past, h1.trace.trans h2.trace, h2.plan.trans h1.plan⟩

theorem sinkCall_grew (p : Params) (x : SinkItem) (k : Sink) : k.Grew (sinkCall p x k).2 := by
  obtain ⟨hpast, hplan, hcases⟩ := sinkCall_cases p x k
  refine ⟨hpast, ?_, hplan ▸ List.tail_suffix _⟩
  rcases hcases with ⟨-, htrace⟩ | ⟨-, -, htrace⟩ | ⟨-, -, htrace⟩ <;> rw [htrace]
  exact List.prefix_append _ _

/-- Two ENC registers with the same flags and cause (R22). -/
structure Enc.SameFlags (e e1 : Enc) : Prop where
  closed : e1.closed = e.closed
  fault : e1.fault = e.fault
  cause : e1.cause = e.cause

theorem Enc.SameFlags.refl (e : Enc) : e.SameFlags e := ⟨rfl, rfl, rfl⟩

theorem Enc.SameFlags.trans {e e1 e2 : Enc} (h1 : e.SameFlags e1) (h2 : e1.SameFlags e2) : e.SameFlags e2 :=
  ⟨h2.closed.trans h1.closed, h2.fault.trans h1.fault, h2.cause.trans h1.cause⟩

/-- What a micro-operation of the writer begun in `w` can end with, whatever the sink answers (R76 to R79, R105):
flags and cause change only when the sink fails, and then to IoFailSink; an open writer stays open, and holds a
full byte at most when the operation ends otherwise. -/
def BwResult.EndsFrom (x : BwResult) (p : Params) (w : Writer) : Prop :=
  match x with
  | .ok w1 => w.sink.Grew w1.sink ∧ w.enc.SameFlags w1.enc ∧ (w.Open → w1.Open)
  | .raised c w1 => w.sink.Grew w1.sink ∧ c = .ioFailSink ∧ p.hasIoErr = true ∧
      (w.Open → w1.enc.pos ≤ 8) ∧ ∃ e, w.enc.SameFlags e ∧ w1.enc = encRaise .ioFailSink e
  | .blocked w1 => w.sink.Grew w1.sink ∧ SinkAnswer.never ∈ w.sink.plan ∧
      (w.Open → w1.enc.pos ≤ 8) ∧ w.enc.SameFlags w1.enc
  | .refused _ => True

theorem BwResult.EndsFrom.self (p : Params) (w : Writer) : (BwResult.ok w).EndsFrom p w :=
  ⟨.refl _, .refl _, id⟩

/-- Micro-operations one after another. -/
theorem BwResult.EndsFrom.andThen {x : BwResult} {p : Params} {w : Writer} {f : Writer → BwResult}
    (hx : x.EndsFrom p w) (hf : ∀ v, x = .ok v → (f v).EndsFrom p v) : (x.andThen f).EndsFrom p w := by
  cases x with
  | raised c v => exact hx
  | blocked v => exact hx
  | refused r => trivial
  | ok v =>
    obtain ⟨hgrew, hflags, hopen⟩ := hx
    have hv := hf v rfl
    rw [andThen_ok]
    cases hfv : f v with
    | refused r => trivial
    | ok u =>
      obtain ⟨hgrew1, hflags1, hopen1⟩ := hfv ▸ hv
      exact ⟨hgrew.trans hgrew1, hflags.trans hflags1, hopen1 ∘ hopen⟩
    | blocked u =>
      obtain ⟨hgrew1, hnever, hpos, hflags1⟩ := hfv ▸ hv
      exact ⟨hgrew.trans hgrew1, hgrew.plan.subset hnever, hpos ∘ hopen, hflags.trans hflags1⟩
    | raised c u =>
      obtain ⟨hgrew1, hc, hio, hpos, e, hflags1, he⟩ := hfv ▸ hv
      exact ⟨hgrew.trans hgrew1, hc, hio, hpos ∘ hopen, e, hflags.trans hflags1, he⟩

/-- A call of the sink, made with the registers `e` and followed by the registers `e1` (R74, R75). -/
theorem sinkDone_endsFrom (p : Params) (x : SinkItem) {w : Writer} {e e1 : Enc} (he : w.enc.SameFlags e)
    (hpos : w.Open → e.pos ≤ 8) (he1 : w.enc.SameFlags e1)
    (hopen : w.Open → ∀ k, Writer.Open { enc := e1, sink := k }) :
    (sinkDone e (sinkCall p x w.sink) fun k => .ok { enc := e1, sink := k }).EndsFrom p w := by
  have hgrew := sinkCall_grew p x w.sink
  obtain ⟨-, -, hcases⟩ := sinkCall_cases p x w.sink
  rw [sinkDone]
  rcases hcases with ⟨hans, -⟩ | ⟨hans, hio, -⟩ | ⟨hans, hnever, -⟩ <;> rw [hans]
  · exact ⟨hgrew, he1, fun ho => hopen ho _⟩
  · refine ⟨hgrew, rfl, hio, fun ho => ?_, e, he, rfl⟩
    simp only [encRaise]
    split <;> exact hpos ho
  · exact ⟨hgrew, hnever, hpos, he⟩

theorem Writer.open_empty {e : Enc} (hacc : e.acc = 0) (hpos : e.pos = 0) (k : Sink) :
    Writer.Open { enc := e, sink := k } := by
  simp [Writer.Open, hacc, hpos, low]

theorem bwBit_endsFrom (p : Params) (b : Bool) (w : Writer) : (bwBit p b w).EndsFrom p w := by
  rw [bwBit]
  simp only []
  split
  case isTrue hfull =>
    exact sinkDone_endsFrom p _ ⟨rfl, rfl, rfl⟩ (fun _ => hfull.le) ⟨rfl, rfl, rfl⟩
      fun _ => Writer.open_empty rfl rfl
  case isFalse hfull =>
    refine ⟨.refl _, ⟨rfl, rfl, rfl⟩, fun ⟨hpos, hlow⟩ => ?_⟩
    obtain ⟨-, hlow1⟩ := acc_or_bit w.enc.acc b w.enc.pos hpos hlow
    rw [show 7 - w.enc.pos = 8 - (w.enc.pos + 1) by omega] at hlow1
    exact ⟨by simp only []; omega, by rwa [show 7 - w.enc.pos = 8 - (w.enc.pos + 1) by omega]⟩

theorem bwBits_endsFrom (p : Params) (bits : BitString) (w : Writer) : (bwBits p bits w).EndsFrom p w := by
  induction bits generalizing w with
  | nil => exact .self p w
  | cons b bits ih => exact (bwBit_endsFrom p b w).andThen fun v _ => ih v

theorem bwAppend_endsFrom (p : Params) (pattern count : Nat) (w : Writer) :
    (bwAppend p pattern count w).EndsFrom p w := by
  rw [bwAppend]
  split
  · trivial
  · exact bwBits_endsFrom p _ w

theorem putBits_endsFrom (p : Params) (item : Int) (w : Writer) : (putBits p item w).EndsFrom p w := by
  rw [putBits]
  split
  · exact bwAppend_endsFrom p _ _ w
  · exact (bwAppend_endsFrom p _ _ _).andThen fun _ _ => (bwAppend_endsFrom p _ _ _).andThen fun _ _ =>
      (bwAppend_endsFrom p _ _ _).andThen fun _ _ => bwAppend_endsFrom p _ _ _

theorem bwPad_endsFrom (p : Params) (w : Writer) : (bwPad p w).EndsFrom p w := by
  rw [bwPad]
  split
  · exact sinkDone_endsFrom p _ (.refl _) (fun ⟨hpos, _⟩ => by omega) ⟨rfl, rfl, rfl⟩
      fun _ => Writer.open_empty rfl rfl
  · exact .self p w

theorem bwClose_endsFrom (p : Params) (w : Writer) : (bwClose p w).EndsFrom p w :=
  (bwPad_endsFrom p w).andThen fun v _ =>
    sinkDone_endsFrom p .flush (.refl _) (fun ⟨hpos, _⟩ => by omega) (.refl _) fun ho _ => ho

theorem sinkDone_eq_ok {e : Enc} {r : SinkAnswer × Sink} {f : Sink → BwResult} {w : Writer}
    (h : sinkDone e r f = .ok w) : f r.2 = .ok w := by
  obtain ⟨answer, k⟩ := r
  cases answer
  case ok => exact h
  all_goals cases h

/-- A close that ends well leaves no bit pending (R79). -/
theorem bwClose_ok_pos {p : Params} {w v : Writer} (h : bwClose p w = .ok v) : v.enc.pos = 0 := by
  obtain ⟨u, hpad, hflush⟩ := (andThen_eq_ok _ _ _).mp h
  cases sinkDone_eq_ok hflush
  rw [bwPad] at hpad
  split at hpad
  case isTrue => cases sinkDone_eq_ok hpad; rfl
  case isFalse hpos => cases hpad; exact Nat.eq_zero_of_not_pos hpos

/-- An open writer with no bit pending holds an empty byte (R14). -/
theorem Writer.Open.acc_eq_zero {w : Writer} (ho : w.Open) (hpos : w.enc.pos = 0) : w.enc.acc = 0 := by
  obtain ⟨-, hlow⟩ := ho
  rw [hpos, low, Nat.mod_eq_of_lt w.enc.acc.isLt] at hlow
  exact BitVec.eq_of_toNat_eq hlow

/-! ### Which way a command goes -/

theorem Enc.illegal_eq_false_iff (e : Enc) : e.illegal = false ↔ e.pos ≤ 7 := by
  simp only [Enc.illegal, decide_eq_false_iff_not]
  omega

theorem exec_encPut_faulted {s : State} (item : Int) (hf : s.enc.fault = true) :
    exec (.encPut item) s = .next (encRefuse .encFaulted s) := if_pos hf

theorem exec_encPut_closed {s : State} (item : Int) (hf : s.enc.fault = false) (hc : s.enc.closed = true) :
    exec (.encPut item) s = .next (encRefuse .encClosed s) := by
  simp [exec, execEncPut, hf, hc]

theorem exec_encPut_range {s : State} {item : Int} (hf : s.enc.fault = false) (hc : s.enc.closed = false)
    (hin : ¬ InRange s.params item) : exec (.encPut item) s = .next (encRefuse .encRange s) := by
  simp [exec, execEncPut, hf, hc, hin]

theorem exec_encPut_runs {s : State} {item : Int} (hf : s.enc.fault = false) (hc : s.enc.closed = false)
    (hin : InRange s.params item) (hpos : s.enc.pos ≤ 7) :
    exec (.encPut item) s = finishEnc s (putBits s.params item s.writer) := by
  simp [exec, execEncPut, hf, hc, hin, (Enc.illegal_eq_false_iff _).mpr hpos]

theorem exec_encClose_faulted {s : State} (hf : s.enc.fault = true) :
    exec .encClose s = .next (encRefuse .encFaulted s) := if_pos hf

theorem exec_encClose_closed {s : State} (hf : s.enc.fault = false) (hc : s.enc.closed = true) :
    exec .encClose s = .next (encRefuse .encClosed s) := by
  simp [exec, execEncClose, hf, hc]

theorem exec_encClose_runs {s : State} (hf : s.enc.fault = false) (hc : s.enc.closed = false)
    (hpos : s.enc.pos ≤ 7) : exec .encClose s = finishEnc s (closeStream s.params s.writer) := by
  simp [exec, execEncClose, hf, hc, (Enc.illegal_eq_false_iff _).mpr hpos]

/-- The unit runs the micro-operations of a put or a close (R110, U11). -/
structure Enc.Running (e : Enc) : Prop where
  fault : e.fault = false
  closed : e.closed = false
  pos_le : e.pos ≤ 7

/-- An ENC.PUT or ENC.CLOSE is refused, or stuck with too many bits pending, or its micro-operations run. -/
theorem exec_putOrClose_ways {i : Instr} (hi : i = .encClose ∨ ∃ item, i = .encPut item) (s : State) :
    (∃ r, exec i s = .next (encRefuse r s)) ∨
    (s.enc.fault = false ∧ 8 ≤ s.enc.pos ∧ s.enc.closed = false ∧ exec i s = .fault .encIllegalState) ∨
    (s.enc.Running ∧ ((∃ item, i = .encPut item ∧ exec i s = finishEnc s (putBits s.params item s.writer)) ∨
      (i = .encClose ∧ exec i s = finishEnc s (closeStream s.params s.writer)))) := by
  cases hf : s.enc.fault with
  | true =>
    rcases hi with rfl | ⟨item, rfl⟩
    · exact .inl ⟨_, exec_encClose_faulted hf⟩
    · exact .inl ⟨_, exec_encPut_faulted item hf⟩
  | false =>
    cases hc : s.enc.closed with
    | true =>
      rcases hi with rfl | ⟨item, rfl⟩
      · exact .inl ⟨_, exec_encClose_closed hf hc⟩
      · exact .inl ⟨_, exec_encPut_closed item hf hc⟩
    | false =>
      rcases Nat.lt_or_ge 7 s.enc.pos with hpos | hpos
      · have hstuck : s.enc.illegal = true := decide_eq_true hpos
        rcases hi with rfl | ⟨item, rfl⟩
        · exact .inr (.inl ⟨rfl, hpos, rfl, by simp [exec, execEncClose, hf, hc, hstuck]⟩)
        · by_cases hin : InRange s.params item
          · exact .inr (.inl ⟨rfl, hpos, rfl, by simp [exec, execEncPut, hf, hc, hin, hstuck]⟩)
          · exact .inl ⟨_, exec_encPut_range hf hc hin⟩
      · rcases hi with rfl | ⟨item, rfl⟩
        · exact .inr (.inr ⟨⟨hf, hc, hpos⟩, .inr ⟨rfl, exec_encClose_runs hf hc hpos⟩⟩)
        · by_cases hin : InRange s.params item
          · exact .inr (.inr ⟨⟨hf, hc, hpos⟩, .inl ⟨item, rfl, exec_encPut_runs hf hc hin hpos⟩⟩)
          · exact .inl ⟨_, exec_encPut_range hf hc hin⟩

/-! ### How a command ends -/

/-- The next states of an ENC.PUT or ENC.CLOSE begun in `s` (R103, R105, R108, R112). -/
inductive PutOrCloseEnds (i : Instr) (s : State) : State → Prop where
  | refused (r : RefReason) : PutOrCloseEnds i s (encRefuse r s)
  | returned (w : Writer) (running : s.enc.Running) (grew : s.sink.Grew w.sink)
      (fault : w.enc.fault = s.enc.fault) (cause : w.enc.cause = s.enc.cause)
      (closed : i ≠ .encClose → w.enc.closed = s.enc.closed)
      (isOpen : s.writer.Open → w.Open ∧ (w.enc.closed = true → w.enc.pos = 0 ∧ w.enc.acc = 0)) :
      PutOrCloseEnds i s ((s.withWriter w).withEncResult .returned)
  | faulted (w : Writer) (running : s.enc.Running) (grew : s.sink.Grew w.sink)
      (hasIoErr : s.params.hasIoErr = true) (fault : w.enc.fault = true) (cause : w.enc.cause = .ioFailSink)
      (closed : w.enc.closed = s.enc.closed) (pos : s.writer.Open → w.enc.pos ≤ 8) :
      PutOrCloseEnds i s ((s.withWriter w).withEncResult (.faulted .ioFailSink))
  | waiting (w : Writer) (running : s.enc.Running) (grew : s.sink.Grew w.sink)
      (never : SinkAnswer.never ∈ s.sink.plan) (flags : s.enc.SameFlags w.enc)
      (pos : s.writer.Open → w.enc.pos ≤ 8) :
      PutOrCloseEnds i s { s.withWriter w with encPort := { s.encPort with busy := true, result := .waiting } }

/-- The end of the micro-operations is the end of the command, but for the flag that a good close sets. -/
theorem putOrCloseEnds_of_endsFrom {i : Instr} {s t : State} {x : BwResult} (running : s.enc.Running)
    (hx : x.EndsFrom s.params s.writer) (h : finishEnc s x = .next t)
    (hput : ∀ w, x = .ok w → i ≠ .encClose) : PutOrCloseEnds i s t := by
  cases x with
  | refused r => cases h; exact .refused r
  | ok w =>
    obtain ⟨grew, flags, hopen⟩ := hx
    cases h
    refine .returned w running grew flags.fault flags.cause (fun _ => flags.closed) fun ho => ⟨hopen ho, ?_⟩
    intro hclosed
    cases hclosed.symm.trans (flags.closed.trans running.closed)
  | blocked w =>
    obtain ⟨grew, never, pos, flags⟩ := hx
    cases h
    exact .waiting w running grew never flags pos
  | raised c w =>
    obtain ⟨grew, rfl, hio, pos, e, flags, he⟩ := hx
    rw [encRaise, if_neg (by rw [flags.fault, State.writer_enc, running.fault]; decide)] at he
    cases h
    exact .faulted w running grew hio (by rw [he]) (by rw [he]) (by rw [he]; exact flags.closed) pos

/-- Everything ENC.PUT and ENC.CLOSE can do that is a next state. -/
theorem exec_putOrClose_ends {i : Instr} {s t : State} (hi : i = .encClose ∨ ∃ item, i = .encPut item)
    (h : exec i s = .next t) : PutOrCloseEnds i s t := by
  rcases exec_putOrClose_ways hi s with ⟨r, heq⟩ | ⟨-, -, -, heq⟩ | ⟨running, ⟨item, rfl, heq⟩ | ⟨rfl, heq⟩⟩ <;>
    rw [heq] at h
  · cases h
    exact .refused r
  · cases h
  · exact putOrCloseEnds_of_endsFrom running (putBits_endsFrom _ item _) h (by simp)
  · have hends := bwClose_endsFrom s.params s.writer
    rw [closeStream] at h
    cases hclose : bwClose s.params s.writer with rw [hclose] at h hends
    | ok w =>
      obtain ⟨grew, flags, hopen⟩ := hends
      have hpos : w.enc.pos = 0 := bwClose_ok_pos hclose
      cases h
      exact .returned _ running grew flags.fault flags.cause (fun hput => absurd rfl hput) fun ho =>
        ⟨hopen ho, fun _ => ⟨hpos, (hopen ho).acc_eq_zero hpos⟩⟩
    | refused r => exact putOrCloseEnds_of_endsFrom running hends h (by simp)
    | blocked w => exact putOrCloseEnds_of_endsFrom running hends h (by simp)
    | raised c w => exact putOrCloseEnds_of_endsFrom running hends h (by simp)

/-! ### The statements -/

/-- Settles O18, from the ends of the two commands. -/
theorem putAndCloseFrame : Obligations.PutAndCloseFrame := by
  intro s t i hi h
  cases exec_putOrClose_ends hi h with
  | refused r => simp
  | returned w running grew fault cause closed isOpen =>
    exact ⟨rfl, rfl, rfl, rfl, rfl, rfl, grew.past, grew.trace, fun _ => ⟨fault, cause⟩, closed⟩
  | faulted w running grew hasIoErr fault cause closed pos =>
    exact ⟨rfl, rfl, rfl, rfl, rfl, rfl, grew.past, grew.trace, fun hno => absurd rfl (hno .ioFailSink),
      fun _ => closed⟩
  | waiting w running grew never flags pos =>
    exact ⟨rfl, rfl, rfl, rfl, rfl, rfl, grew.past, grew.trace, fun _ => ⟨flags.fault, flags.cause⟩,
      fun _ => flags.closed⟩

/-- Settles O24: of the ends of the two commands only one reports a fault. -/
theorem encFaultsAreIoFailSink : Obligations.EncFaultsAreIoFailSink := by
  intro s t i c hi h hresult
  cases exec_putOrClose_ends hi h with
  | refused r => cases hresult
  | returned w running grew fault cause closed isOpen => cases hresult
  | waiting w running grew never flags pos => cases hresult
  | faulted w running grew hasIoErr fault cause closed pos =>
    cases hresult
    exact ⟨rfl, hasIoErr, running.fault, fault, cause, closed.trans running.closed, grew.trace⟩

/-- Settles O16: the codeword is taken by the writer. -/
theorem putAppendsCodeword : Obligations.PutAppendsCodeword := by
  intro s item hp hin hf hc ho hr
  obtain ⟨w, hexec, ht⟩ := exec_encPut_of_encOpen hp hin ⟨hf, hc, ho, hr⟩
  obtain ⟨hpos, -⟩ := ht.isOpen
  obtain ⟨bytes, htrace, hlen⟩ := ht.written
  rw [State.writer_enc] at hlen
  exact ⟨_, hexec, ht.isOpen, ht.spelt, by simp only [State.withEncResult_enc, State.withWriter_enc]; omega,
    ⟨bytes, htrace, by omega⟩, ht.past, ht.closed.trans hc, ht.fault.trans hf, ht.cause, rfl, rfl, rfl, rfl,
    rfl, rfl, rfl⟩

/-- Settles O17: the tests of ENC.PUT in their order. -/
theorem putRefusals : Obligations.PutRefusals := fun s item =>
  ⟨exec_encPut_faulted item, exec_encPut_closed item, exec_encPut_range,
    fun r => ⟨rfl, rfl, rfl, firstMark_ne_none s.encPort.marked r⟩⟩

/-- Settles O22: the tests of ENC.CLOSE in their order. -/
theorem closeRefusals : Obligations.CloseRefusals := fun _ => ⟨exec_encClose_faulted, exec_encClose_closed⟩

/-- Settles O20: the close of the stream on a sink that answers. -/
theorem closeCompletes : Obligations.CloseCompletes := by
  intro s hf hc hpos hr
  obtain ⟨k, hclose, htrace, hpast⟩ := closeStream_reliable (w := s.writer) hr
  refine ⟨_, (exec_encClose_runs hf hc hpos).trans (by rw [hclose, finishEnc]), ?_⟩
  exact ⟨htrace, rfl, rfl, hpast, rfl, rfl, rfl, rfl, rfl, rfl⟩

/-- Settles O21: the trace of a closed stream spells the bits and the padding. -/
theorem closePadsWithZeros : Obligations.ClosePadsWithZeros := by
  intro s hf hc ho hr hbusy hmarked
  obtain ⟨w, hexec, henc, htrace, -⟩ := exec_encClose_of_encOpen ⟨hf, hc, ho, hr⟩
  refine ⟨_, hexec, ?_, ?_⟩
  · rw [State.withEncResult_sink, State.withWriter_sink, htrace, bytesBits_closedTrace ho]
  · rw [EncRunEnded, State.withEncResult_enc, State.withWriter_enc, henc]
    exact ⟨rfl, hf, hbusy, hmarked⟩

/-- Settles O23: the write of the partial byte is the first call of the sink, and its failure is the end. -/
theorem closeWriteFails : Obligations.CloseWriteFails := by
  intro s rest hf hc hpos hle hio hplan
  have hwrite : sinkWrite s.params s.enc.acc s.sink = (.fail, { s.sink with plan := rest }) := by
    simp [sinkWrite, sinkCall, Sink.answer, hplan, hio]
  have hpad : bwPad s.params s.writer = .raised .ioFailSink
      { enc := { s.enc with fault := true, cause := .ioFailSink }, sink := { s.sink with plan := rest } } := by
    simp [bwPad, hpos, hwrite, sinkDone, encRaise, hf]
  rw [exec_encClose_runs hf hc hle, closeStream, bwClose, hpad, andThen_raised, andThen_raised]
  rfl

/-- Settles O25: ENC.RST tests nothing and writes the unit, the trace and the report. -/
theorem encRstEffect : Obligations.EncRstEffect := fun _ =>
  ⟨_, rfl, rfl, rfl, rfl, rfl, rfl, rfl, List.append_nil _, rfl, rfl, rfl, rfl, rfl, rfl, rfl, rfl⟩

/-- Settles O26: a NOP answers the state it is given. -/
theorem nopsDoNothing : Obligations.NopsDoNothing := fun _ => ⟨rfl, rfl⟩

end Sys2Proof.Machine
end

section
/-! PROOFS. The status registers (spec/10_state.md R22, R23, R26, R27), the forms of the decoder FSM
(spec/10_state.md R16, R18, R19; spec/43_decoder_fsm.md R85, R86), and the reader (spec/42_bitreader.md R82 to
R84). -/
namespace Sys2Proof.Machine

/-! ### Reset and status -/

/-- Settles O27, by reading the fields off the reset state. -/
theorem resetValues : Obligations.ResetValues := ⟨rfl, rfl, rfl, rfl, rfl⟩

/-- The fields of a status byte (R22, R23). -/
theorem statusByte_fields (bit0 bit1 : Bool) (cause : OutcomeCode) :
    (statusByte bit0 bit1 cause).getLsbD 0 = bit0 ∧ (statusByte bit0 bit1 cause).getLsbD 1 = bit1 ∧
    ((statusByte bit0 bit1 cause).extractLsb' 2 3).toNat = cause.code ∧
    (statusByte bit0 bit1 cause).extractLsb' 5 3 = 0 := by
  cases bit0 <;> cases bit1 <;> cases cause <;> decide

/-- Settles O28: both registers are status bytes. -/
theorem statusBits : Obligations.StatusBits := by
  intro s
  obtain ⟨he0, he1, hecause, hezero⟩ := statusByte_fields s.enc.closed s.enc.fault s.enc.cause
  obtain ⟨hd0, hd1, hdcause, hdzero⟩ := statusByte_fields s.dec.eos s.dec.fault s.dec.cause
  exact ⟨he0, he1, hecause, hezero, hd0, hd1, hdcause, hdzero⟩

/-! ### DEC.STEP in CountingZeros -/

/-- A zero is counted (R86). -/
theorem decStep_zero (p : Params) {d : Dec} (hst : d.st = .countingZeros) :
    decStep p false d = .quiet { d with zc := d.zc + 1 } := by
  simp [decStep, hst]

/-- A separator with no zero before it is the value 0 (R86). -/
theorem decStep_separator_zero (p : Params) {d : Dec} (hst : d.st = .countingZeros) (hzc : d.zc = 0) :
    decStep p true d = .emit 0 d := by
  simp [decStep, hst, hzc]

/-- A separator after zeros begins the field (R86). -/
theorem decStep_separator_enters {p : Params} {d : Dec} (hst : d.st = .countingZeros) (hzc : d.zc ≠ 0)
    (hmax : d.zc ≤ p.nbitsMax) :
    decStep p true d = .quiet { d with acc := 1, rem := d.zc, st := .shiftingBits } := by
  simp [decStep, hst, hzc, Nat.not_lt.mpr hmax]

/-- A separator after too many zeros is DecOverrange (R86, R106). -/
theorem decStep_separator_overrange {p : Params} {d : Dec} (hst : d.st = .countingZeros)
    (hmax : p.nbitsMax < d.zc) : decStep p true d = .raised .decOverrange (decRaise .decOverrange d) := by
  simp [decStep, hst, hmax, Nat.ne_of_gt (Nat.zero_lt_of_lt hmax)]

/-- Settles O29, from the four transitions of CountingZeros. -/
theorem stepCountingZeros : Obligations.StepCountingZeros := fun p _ hst =>
  ⟨decStep_zero p hst, decStep_separator_zero p hst, decStep_separator_enters hst,
    decStep_separator_overrange hst⟩

/-- Raising a fault changes only the flag and its cause. -/
theorem decRaise_st_zc (c : OutcomeCode) (d : Dec) :
    (decRaise c d).st = d.st ∧ (decRaise c d).zc = d.zc := by
  rw [decRaise]
  split <;> exact ⟨rfl, rfl⟩

/-! ### The other forms of the FSM -/

/-- Settles O32, transition by transition. -/
theorem registerFormIsCanonical : Obligations.RegisterFormIsCanonical := by
  intro p b d hrem
  cases hst : d.st with
  | readingSign => simp [decStep_readingSign p b hst, StepResult.fsm, Dec.fsm, fsmStep, hst]
  | shiftingBits =>
    rcases Nat.eq_or_lt_of_le (hrem hst) with hlast | hmore
    · simp [decStep_shiftingBits_last p b hst hlast.symm, StepResult.fsm, Dec.fsm, fsmStep, hst, ← hlast]
    · simp [decStep_shiftingBits_more p b hst hmore, StepResult.fsm, Dec.fsm, fsmStep, hst, hmore]
  | countingZeros =>
    cases b with
    | false => simp [decStep_zero p hst, StepResult.fsm, Dec.fsm, fsmStep, hst]
    | true =>
      by_cases hzc : d.zc = 0
      · simp [decStep_separator_zero p hst hzc, StepResult.fsm, Dec.fsm, fsmStep, hst, hzc]
      · rcases Nat.lt_or_ge p.nbitsMax d.zc with hover | hmax
        · obtain ⟨hst1, hzc1⟩ := decRaise_st_zc .decOverrange d
          simp [decStep_separator_overrange hst hover, StepResult.fsm, Dec.fsm, fsmStep, hst, hst1, hzc1, hzc,
            Nat.not_le.mpr hover]
        · simp [decStep_separator_enters hst hzc hmax, StepResult.fsm, Dec.fsm, fsmStep, hst, hzc, hmax]

@[simp] theorem Dec.saturate_saturate (p : Params) (d : Dec) : (d.saturate p).saturate p = d.saturate p := by
  simp [Dec.saturate]

theorem decRaise_saturate (p : Params) (c : OutcomeCode) (d : Dec) :
    decRaise c (d.saturate p) = (decRaise c d).saturate p := by
  cases h : d.fault <;> simp [decRaise, Dec.saturate, h]

/-- Settles O33: only CountingZeros looks at the counter, and it asks for 0 and for more than NBITS_MAX. -/
theorem saturatingCounterIsUnobservable : Obligations.SaturatingCounterIsUnobservable := by
  intro p b d
  have hst : (d.saturate p).st = d.st := rfl
  have hzc : (d.saturate p).zc = min d.zc (p.nbitsMax + 1) := rfl
  rw [decStepSaturating]
  cases h : d.st with rw [h] at hst
  | readingSign =>
    rw [decStep_readingSign p b hst, decStep_readingSign p b h]
    simp [StepResult.saturate, Dec.saturate]
  | shiftingBits =>
    simp only [decStep, hst, h]
    split <;> simp_all [StepResult.saturate, Dec.saturate]
  | countingZeros =>
    cases b with
    | false =>
      rw [decStep_zero p hst, decStep_zero p h]
      simp [StepResult.saturate, Dec.saturate]
    | true =>
      by_cases hzero : d.zc = 0
      · rw [decStep_separator_zero p hst (by omega), decStep_separator_zero p h hzero]
        simp [StepResult.saturate]
      · rcases Nat.lt_or_ge p.nbitsMax d.zc with hover | hmax
        · rw [decStep_separator_overrange hst (by omega), decStep_separator_overrange h hover]
          simp [StepResult.saturate, decRaise_saturate]
        · rw [decStep_separator_enters hst (by omega) (by omega), decStep_separator_enters h hzero hmax]
          simp [StepResult.saturate, Dec.saturate, Nat.min_eq_left (Nat.le_succ_of_le hmax)]

/-! ### The reader -/

/-- Settles O34, bit by bit. -/
theorem readerDeliversInOrder : Obligations.ReaderDeliversInOrder := by
  intro p r n hleft heos hr hn
  induction n generalizing r with
  | zero =>
    refine ⟨r, rfl, rfl, by simp, fun hnone => ?_⟩
    rcases brNextBit_reliable p r hleft heos hr with ⟨-, r1, hend, hdec, -⟩ | ⟨b, r1, -, hbits, -⟩
    · exact ⟨r1, hend, hdec⟩
    · rw [hbits] at hnone
      cases hnone
  | succ n ih =>
    rcases brNextBit_reliable p r hleft heos hr with ⟨hnone, -⟩ | ⟨b, r1, hbit, hbits, -, hdec, hle, hrel, hfrom⟩
    · rw [hnone] at hn
      cases hn
    · rw [hbits, List.length_cons] at hn
      have heos1 : r1.dec.eos = false := by rw [hdec]; exact heos
      obtain ⟨r2, htake, hrest, hcontent, hend⟩ := ih r1 (by omega) heos1 hrel (by omega)
      refine ⟨r2, ?_, ?_, ?_, ?_⟩
      · rw [takeBits, hbit]
        simp [htake, hbits]
      · rw [hrest, hbits, List.drop_succ_cons]
      · rcases hfrom with ⟨hpos, hsource, hleft1⟩ | ⟨hzero, hsource, hleft1, -⟩
        · rw [hcontent, hsource, hleft1]
          congr 1
          omega
        · rw [hcontent, hsource, hleft1, List.drop_drop]
          congr 1
          omega
      · intro hall
        rw [hbits, List.length_cons] at hall
        exact hend (by omega)

/-- A source after some calls: it gave the first of its bytes, and of its planned turns (R21, R83). -/
structure Source.Gave (k k1 : Source) : Prop where
  content : k1.content <:+ k.content
  plan : k1.plan <:+ k.plan

theorem Source.Gave.refl (k : Source) : k.Gave k := ⟨List.suffix_rfl, List.suffix_rfl⟩

theorem Source.Gave.trans {k k1 k2 : Source} (h1 : k.Gave k1) (h2 : k1.Gave k2) : k.Gave k2 :=
  ⟨h2.content.trans h1.content, h2.plan.trans h1.plan⟩

/-- Everything a SourceRead can do (R81, R46). -/
theorem sourceRead_cases (p : Params) (k : Source) :
    k.Gave (sourceRead p k).2 ∧
    (((sourceRead p k).1 = .never ∧ SourceTurn.never ∈ k.plan) ∨ (sourceRead p k).1 = .fail ∨
      ((sourceRead p k).1 = .exhausted ∧ k.content = []) ∨
      ∃ b, (sourceRead p k).1 = .byte b ∧ k.content = b :: (sourceRead p k).2.content) := by
  obtain ⟨content, trace, plan⟩ := k
  have hturn : Source.turn p ⟨content, trace, plan⟩ = .never → SourceTurn.never ∈ plan := by
    cases plan with
    | nil => intro h; cases h
    | cons a rest => cases a <;> cases hio : p.hasIoErr <;> simp [Source.turn, hio]
  cases h : Source.turn p ⟨content, trace, plan⟩ with
  | never =>
    simp only [sourceRead, h]
    exact ⟨⟨List.suffix_rfl, List.tail_suffix _⟩, .inl ⟨trivial, hturn h⟩⟩
  | fail =>
    simp only [sourceRead, h]
    exact ⟨⟨List.suffix_rfl, List.tail_suffix _⟩, .inr (.inl trivial)⟩
  | serve =>
    cases content with
    | nil =>
      simp only [sourceRead, h]
      exact ⟨⟨List.suffix_rfl, List.tail_suffix _⟩, .inr (.inr (.inl ⟨trivial, trivial⟩))⟩
    | cons b rest =>
      simp only [sourceRead, h]
      exact ⟨⟨List.suffix_cons b rest, List.tail_suffix _⟩, .inr (.inr (.inr ⟨b, rfl, rfl⟩))⟩

/-- What BR.NEXTBIT from `r` can end with, whatever the source does (R82, R84, R105): the FSM and the output
buffer stay, a bit leaves one bit fewer to deliver, and the latch is set when no bit is loaded. -/
def BrResult.EndsFrom (x : BrResult) (r : Reader) : Prop :=
  match x with
  | .bit _ r1 => r.source.Gave r1.source ∧ r1.out = r.out ∧ readFuel r = readFuel r1 + 1 ∧
      (r.dec.left ≤ 8 → r1.dec.left ≤ 7) ∧ (r.dec.eos = true → 0 < r.dec.left) ∧
      r1.dec = { r.dec with cur := r1.dec.cur, left := r1.dec.left }
  | .endOfStream r1 => r.source.Gave r1.source ∧ r1.out = r.out ∧ r.dec.left = 0 ∧
      r1.dec = { r.dec with eos := true }
  | .raised c r1 => r.source.Gave r1.source ∧ r1.out = r.out ∧ c = .ioFailSource ∧
      r1.dec = decRaise .ioFailSource r.dec
  | .blocked r1 => r.source.Gave r1.source ∧ r1.out = r.out ∧ SourceTurn.never ∈ r.source.plan ∧
      r1.dec = r.dec

theorem brNextBit_endsFrom (p : Params) (r : Reader) : (brNextBit p r).EndsFrom r := by
  rw [brNextBit]
  split
  case isFalse hpos =>
    exact ⟨.refl _, rfl, by simp only [readFuel]; omega, fun hle => by simp only []; omega, fun _ => by omega,
      rfl⟩
  case isTrue hzero =>
    split
    case isTrue heos =>
      refine ⟨.refl _, rfl, hzero, ?_⟩
      rw [← heos]
    case isFalse heos =>
      obtain ⟨hgave, hcases⟩ := sourceRead_cases p r.source
      generalize sourceRead p r.source = answer at hgave hcases
      obtain ⟨a, k⟩ := answer
      rcases hcases with ⟨rfl, hnever⟩ | rfl | ⟨rfl, -⟩ | ⟨b, rfl, hcontent⟩
      · exact ⟨hgave, rfl, hnever, rfl⟩
      · exact ⟨hgave, rfl, rfl, rfl⟩
      · exact ⟨hgave, rfl, hzero, rfl⟩
      · refine ⟨hgave, rfl, ?_, fun _ => Nat.le_refl 7, fun h => absurd h heos, rfl⟩
        simp only [readFuel, hzero, hcontent, List.length_cons]
        omega

end Sys2Proof.Machine
end

section
/-! PROOFS. The commands of unit DEC in every state (spec/43_decoder_fsm.md R89 to R91; spec/60_exceptions.md R105,
R106; spec/70_reset_and_hazards.md R124, R134): what the loop of DEC.READ keeps however it ends, the bound on its
bit steps, and its corner cases. -/
namespace Sys2Proof.Machine

/-! ### The invariant of unit DEC -/

/-- The accumulator in contract when the field begins (R19, R86). -/
theorem fsmInv_entered {p : Params} {d : Dec} (hzc : d.zc ≠ 0) (hmax : d.zc ≤ p.nbitsMax) :
    FsmInv p { d with acc := 1, rem := d.zc, st := .shiftingBits } :=
  ⟨Nat.one_le_iff_ne_zero.mpr hzc, Nat.le_refl _, hmax, by simp, by simp⟩

/-- The accumulator in contract after the last magnitude bit (R19, R87). -/
theorem FsmInv.last {p : Params} {d : Dec} (h : FsmInv p d) (b : Bool) (hst : d.st = .shiftingBits)
    (hrem : d.rem = 1) : FsmInv p { d with acc := 2 * d.acc + b.toNat - 1, rem := 0, st := .readingSign } := by
  have hb : b.toNat ≤ 1 := Bool.toNat_le b
  obtain ⟨hpos, hle, hmax, -, hhi⟩ := fsmInv_of_shiftingBits hst h
  obtain ⟨hacc, -⟩ := le_shiftedAcc_last b hst h hrem
  rw [show d.zc - d.rem + 1 = d.zc by omega] at hhi
  refine ⟨rfl, hpos.trans hle, hmax, by simp only []; omega, ?_⟩
  simp only [pow_succ]
  omega

/-- The accumulator in contract after a magnitude bit with more to come (R19, R87). -/
theorem FsmInv.more {p : Params} {d : Dec} (h : FsmInv p d) (b : Bool) (hst : d.st = .shiftingBits)
    (hrem : 1 < d.rem) : FsmInv p { d with acc := 2 * d.acc + b.toNat, rem := d.rem - 1 } := by
  have hb : b.toNat ≤ 1 := Bool.toNat_le b
  have hpow : 0 < 2 ^ (d.zc - d.rem) := Nat.two_pow_pos _
  obtain ⟨-, hle, hmax, hlo, hhi⟩ := fsmInv_of_shiftingBits hst h
  have hzc : d.zc - (d.rem - 1) = d.zc - d.rem + 1 := by omega
  simp only [FsmInv, hst, hzc, pow_succ] at hlo hhi ⊢
  omega

/-- A step that completes no value keeps the accumulator in contract (R19). -/
theorem FsmInv.of_quiet {p : Params} {b : Bool} {d d1 : Dec} (h : FsmInv p d)
    (hstep : decStep p b d = .quiet d1) : FsmInv p d1 := by
  cases hst : d.st with
  | readingSign => rw [decStep_readingSign p b hst] at hstep; cases hstep
  | shiftingBits =>
    obtain ⟨hrem, -⟩ := fsmInv_of_shiftingBits hst h
    rcases Nat.eq_or_lt_of_le hrem with hlast | hmore
    · cases (decStep_shiftingBits_last p b hst hlast.symm).symm.trans hstep
      exact h.last b hst hlast.symm
    · cases (decStep_shiftingBits_more p b hst hmore).symm.trans hstep
      exact h.more b hst hmore
  | countingZeros =>
    simp only [decStep, hst] at hstep
    split_ifs at hstep with hzero hzc hover
    · cases hstep
      trivial
    · cases hstep
      exact fsmInv_entered hzc (Nat.not_lt.mp hover)

/-- The FSM moves on and nothing else (R85). -/
theorem DecInv.of_fsm {p : Params} {d d1 : Dec} (h : DecInv p d) (hfault : d1.fault = d.fault)
    (hcause : d1.cause = d.cause) (heos : d1.eos = d.eos) (hleft : d1.left = d.left) (hfsm : FsmInv p d1) :
    DecInv p d1 := by
  obtain ⟨hle, hlatch, hflag, hcauses, -⟩ := h
  rw [← hleft] at hle hlatch
  rw [← heos] at hlatch
  rw [← hfault, ← hcause] at hflag
  rw [← hcause] at hcauses
  exact ⟨hle, hlatch, hflag, hcauses, hfsm⟩

theorem DecInv.fsm {p : Params} {d : Dec} (h : DecInv p d) : FsmInv p d :=
  let ⟨_, _, _, _, hfsm⟩ := h
  hfsm

theorem DecInv.decRaise {p : Params} {d : Dec} {c : OutcomeCode} (h : DecInv p d)
    (hc : c = .ioFailSource ∨ c = .decOverrange) : DecInv p (decRaise c d) := by
  rw [Machine.decRaise]
  split
  · exact h
  · obtain ⟨hle, hlatch, -, -, hfsm⟩ := h
    refine ⟨hle, hlatch, ?_, .inr hc, hfsm⟩
    rcases hc with rfl | rfl <;> simp

/-! ### What a call keeps -/

/-- A reader after some bit steps of a DEC.READ whose count went from `n` to `m` (R89): the source gave bytes, the
latch stays set, the slots from the count on are untouched, and the invariant holds on. -/
structure Reader.Moved (p : Params) (r : Reader) (n m : Nat) (r1 : Reader) : Prop where
  source : r.source.Gave r1.source
  eos : r.dec.eos = true → r1.dec.eos = true
  slots : n ≤ r.out.length → m ≤ r1.out.length ∧ ∀ j, m ≤ j → r1.out[j]? = r.out[j]?
  inv : DecInv p r.dec → DecInv p r1.dec

/-- Two DEC registers with the same fault and cause (R23). -/
structure Dec.SameFault (d d1 : Dec) : Prop where
  fault : d1.fault = d.fault
  cause : d1.cause = d.cause

/-- Two DEC registers with the same loaded byte and latch (R15). -/
structure Dec.SameLoaded (d d1 : Dec) : Prop where
  cur : d1.cur = d.cur
  left : d1.left = d.left
  eos : d1.eos = d.eos

theorem decRaise_sameLoaded (c : OutcomeCode) (d : Dec) : d.SameLoaded (decRaise c d) := by
  rw [decRaise]
  split <;> exact ⟨rfl, rfl, rfl⟩

section Moved
variable {p : Params} {r r1 r2 : Reader} {n m l : Nat} {b : Bool} {d d1 d2 : Dec}

theorem Reader.Moved.refl (p : Params) (r : Reader) (n : Nat) : r.Moved p n n r :=
  ⟨.refl _, id, fun hn => ⟨hn, fun _ _ => rfl⟩, id⟩

theorem Reader.Moved.trans (h1 : r.Moved p n m r1) (h2 : r1.Moved p m l r2) (hle : m ≤ l) :
    r.Moved p n l r2 := by
  refine ⟨h1.source.trans h2.source, h2.eos ∘ h1.eos, fun hn => ?_, h2.inv ∘ h1.inv⟩
  obtain ⟨hm, hslots1⟩ := h1.slots hn
  obtain ⟨hl, hslots2⟩ := h2.slots hm
  exact ⟨hl, fun j hj => (hslots2 j hj).trans (hslots1 j (hle.trans hj))⟩

/-- Nothing is stored when the output buffer stays. -/
theorem Reader.Moved.of_out (hsource : r.source.Gave r1.source) (hout : r1.out = r.out)
    (heos : r.dec.eos = true → r1.dec.eos = true) (hinv : DecInv p r.dec → DecInv p r1.dec) :
    r.Moved p n n r1 :=
  ⟨hsource, heos, fun hn => by rw [hout]; exact ⟨hn, fun _ _ => rfl⟩, hinv⟩

theorem Dec.SameFault.trans (h1 : d.SameFault d1) (h2 : d1.SameFault d2) : d.SameFault d2 :=
  ⟨h2.fault.trans h1.fault, h2.cause.trans h1.cause⟩

theorem brNextBit_bit_moved (h : brNextBit p r = .bit b r1) :
    r.Moved p n n r1 ∧ r.dec.SameFault r1.dec ∧ readFuel r = readFuel r1 + 1 := by
  have hends := brNextBit_endsFrom p r
  rw [h] at hends
  obtain ⟨hgave, hout, hfuel, hleft, hlatch, hdec⟩ := hends
  refine ⟨.of_out hgave hout (by rw [hdec]; exact id) fun hinv => ?_, by rw [hdec]; exact ⟨rfl, rfl⟩, hfuel⟩
  obtain ⟨hle, heos, hflag, hcauses, hfsm⟩ := hinv
  rw [hdec]
  refine ⟨hleft (by omega), fun he => ?_, hflag, hcauses, hfsm⟩
  have hpos := hlatch he
  have hzero := heos he
  omega

theorem brNextBit_endOfStream_moved (h : brNextBit p r = .endOfStream r1) :
    r.Moved p n n r1 ∧ r.dec.SameFault r1.dec ∧ r1.dec.eos = true := by
  have hends := brNextBit_endsFrom p r
  rw [h] at hends
  obtain ⟨hgave, hout, hleft, hdec⟩ := hends
  refine ⟨.of_out hgave hout (by simp [hdec]) fun ⟨_, _, hflag, hcauses, hfsm⟩ => ?_,
    by rw [hdec]; exact ⟨rfl, rfl⟩, by rw [hdec]⟩
  rw [hdec]
  exact ⟨by simp [hleft], fun _ => hleft, hflag, hcauses, hfsm⟩

theorem brNextBit_raised_moved {c : OutcomeCode} (h : brNextBit p r = .raised c r1) : r.Moved p n n r1 := by
  have hends := brNextBit_endsFrom p r
  rw [h] at hends
  obtain ⟨hgave, hout, -, hdec⟩ := hends
  refine .of_out hgave hout ?_ fun hinv => by rw [hdec]; exact hinv.decRaise (.inl rfl)
  rw [hdec]
  exact (decRaise_sameLoaded _ _).eos.trans

theorem brNextBit_blocked_moved (h : brNextBit p r = .blocked r1) :
    r.Moved p n n r1 ∧ r.dec.SameFault r1.dec ∧ SourceTurn.never ∈ r.source.plan := by
  have hends := brNextBit_endsFrom p r
  rw [h] at hends
  obtain ⟨hgave, hout, hnever, hdec⟩ := hends
  rw [← hdec]
  exact ⟨.of_out hgave hout (by rw [hdec]; exact id) (by rw [hdec]; exact id), ⟨rfl, rfl⟩, hnever⟩

/-- A value goes to the first slot that was not counted. -/
theorem writeSlot_slots (v : Int) {out : List Int} (hn : n ≤ out.length) :
    n + 1 ≤ (writeSlot n v out).length ∧ ∀ j, n + 1 ≤ j → (writeSlot n v out)[j]? = out[j]? := by
  have hlen : (out.take n).length = n := List.length_take_of_le hn
  refine ⟨by rw [writeSlot, List.length_append, List.length_cons, hlen]; omega, fun j hj => ?_⟩
  obtain ⟨i, rfl⟩ : ∃ i, j = n + 1 + i := ⟨j - (n + 1), by omega⟩
  rw [writeSlot, List.getElem?_append_right (by omega), hlen, show n + 1 + i - n = i + 1 by omega,
    List.getElem?_cons_succ, List.getElem?_drop]

theorem readFuel_of_sameLoaded (hsource : r1.source = r.source) (h : r.dec.SameLoaded r1.dec) :
    readFuel r1 = readFuel r := by
  rw [readFuel, readFuel, hsource, h.left]

/-- Everything the FSM can make of one bit inside DEC.READ: nothing, one value stored, or DecOverrange (R85,
R89). -/
theorem feedBit_ways (p : Params) (b : Bool) (n : Nat) (r : Reader) (go : Nat → Reader → ReadEnd) :
    (∃ m r1, feedBit p b n r go = go m r1 ∧ r.Moved p n m r1 ∧ n ≤ m ∧ m ≤ n + 1 ∧
      r.dec.SameFault r1.dec ∧ r.dec.SameLoaded r1.dec ∧ r1.source = r.source) ∨
    (feedBit p b n r go = .faulted .decOverrange n { r with dec := decRaise .decOverrange r.dec } ∧
      r.Moved p n n { r with dec := decRaise .decOverrange r.dec }) := by
  rw [feedBit]
  rcases decStep_cases p b r.dec with
    ⟨d, hstep, hfault, hcause, heos, hleft, hcur⟩ | ⟨v, d, hstep, hst, -, hfault, hcause, heos, hleft, hcur⟩ |
    ⟨hstep, -⟩ <;> rw [hstep]
  · refine .inl ⟨n, _, rfl, .of_out (.refl _) rfl (by simp [heos]) fun hinv => ?_, Nat.le_refl n, Nat.le_succ n,
      ⟨hfault, hcause⟩, ⟨hcur, hleft, heos⟩, rfl⟩
    exact hinv.of_fsm hfault hcause heos hleft (hinv.fsm.of_quiet hstep)
  · refine .inl ⟨n + 1, _, rfl, ⟨.refl _, by simp [heos], writeSlot_slots v, fun hinv => ?_⟩, Nat.le_succ n,
      Nat.le_refl _, ⟨hfault, hcause⟩, ⟨hcur, hleft, heos⟩, rfl⟩
    exact hinv.of_fsm hfault hcause heos hleft (by simp only [FsmInv, hst])
  · refine .inr ⟨rfl, .of_out (.refl _) rfl ?_ fun hinv => hinv.decRaise (.inr rfl)⟩
    exact (decRaise_sameLoaded .decOverrange r.dec).eos.trans

end Moved

/-! ### The loop of DEC.READ -/

/-- What the loop begun with count `n` at the reader `r` can end with, whatever the source does (R89, R90, R105,
R134). -/
def ReadEnd.EndsFrom (x : ReadEnd) (p : Params) (fuel cap n : Nat) (r : Reader) : Prop :=
  match x with
  | .returned m e r1 => r.Moved p n m r1 ∧ n ≤ m ∧ m ≤ max n cap ∧ r.dec.SameFault r1.dec ∧ e = r1.dec.eos ∧
      (readFuel r ≤ fuel → m < cap → e = true)
  | .faulted _ m r1 => r.Moved p n m r1 ∧ n ≤ m ∧ m ≤ max n cap
  | .blocked m r1 => r.Moved p n m r1 ∧ n ≤ m ∧ m ≤ max n cap ∧ r.dec.SameFault r1.dec ∧
      SourceTurn.never ∈ r.source.plan

/-- A bit step before the rest of the loop. -/
theorem ReadEnd.EndsFrom.after {x : ReadEnd} {p : Params} {fuel cap n m : Nat} {r r1 : Reader}
    (hmoved : r.Moved p n m r1) (hfault : r.dec.SameFault r1.dec) (hfuel : readFuel r = readFuel r1 + 1)
    (hn : n ≤ m) (hm : m ≤ cap) (hx : x.EndsFrom p fuel cap m r1) : x.EndsFrom p (fuel + 1) cap n r := by
  have hmax : max m cap ≤ max n cap := by omega
  cases x with
  | returned l e r2 =>
    obtain ⟨hmoved1, hle, hl, hfault1, he, hend⟩ := hx
    exact ⟨hmoved.trans hmoved1 hle, hn.trans hle, hl.trans hmax, hfault.trans hfault1, he,
      fun h => hend (by omega)⟩
  | faulted c l r2 =>
    obtain ⟨hmoved1, hle, hl⟩ := hx
    exact ⟨hmoved.trans hmoved1 hle, hn.trans hle, hl.trans hmax⟩
  | blocked l r2 =>
    obtain ⟨hmoved1, hle, hl, hfault1, hnever⟩ := hx
    exact ⟨hmoved.trans hmoved1 hle, hn.trans hle, hl.trans hmax, hfault.trans hfault1,
      hmoved.source.plan.subset hnever⟩

theorem readLoop_endsFrom (p : Params) (fuel cap n : Nat) (r : Reader) :
    (readLoop p fuel cap n r).EndsFrom p fuel cap n r := by
  induction fuel generalizing n r with
  | zero =>
    refine ⟨.refl p r n, Nat.le_refl n, Nat.le_max_left _ _, ⟨rfl, rfl⟩, rfl, fun h => ?_⟩
    simp [readFuel] at h
  | succ fuel ih =>
    rw [readLoop]
    split
    case isFalse hn =>
      exact ⟨.refl p r n, Nat.le_refl n, Nat.le_max_left _ _, ⟨rfl, rfl⟩, rfl, fun _ h => absurd h hn⟩
    case isTrue hn =>
      cases hbit : brNextBit p r with
      | endOfStream r1 =>
        obtain ⟨hmoved, hfault, heos⟩ := brNextBit_endOfStream_moved (n := n) hbit
        exact ⟨hmoved, Nat.le_refl n, Nat.le_max_left _ _, hfault, heos.symm, fun _ _ => rfl⟩
      | raised c r1 => exact ⟨brNextBit_raised_moved hbit, Nat.le_refl n, Nat.le_max_left _ _⟩
      | blocked r1 =>
        obtain ⟨hmoved, hfault, hnever⟩ := brNextBit_blocked_moved (n := n) hbit
        exact ⟨hmoved, Nat.le_refl n, Nat.le_max_left _ _, hfault, hnever⟩
      | bit b r1 =>
        obtain ⟨hmoved, hfault, hfuel⟩ := brNextBit_bit_moved (n := n) hbit
        simp only []
        rcases feedBit_ways p b n r1 (readLoop p fuel cap) with
          ⟨m, r2, hfeed, hmoved2, hle, hlt, hfault2, hloaded2, hsource2⟩ | ⟨hfeed, hmoved2⟩ <;> rw [hfeed]
        · have hfuel2 := readFuel_of_sameLoaded hsource2 hloaded2
          exact .after (hmoved.trans hmoved2 hle) (hfault.trans hfault2) (by omega) hle (by omega) (ih m r2)
        · exact ⟨hmoved.trans hmoved2 (Nat.le_refl n), Nat.le_refl n, Nat.le_max_left _ _⟩

/-- One more bit step than the reader has bits makes no difference. -/
theorem readLoop_succ_fuel {p : Params} {fuel cap n : Nat} {r : Reader} (h : readFuel r ≤ fuel) :
    readLoop p (fuel + 1) cap n r = readLoop p fuel cap n r := by
  induction fuel generalizing n r with
  | zero => simp [readFuel] at h
  | succ fuel ih =>
    rw [readLoop, readLoop]
    split
    case isFalse => rfl
    case isTrue =>
      cases hbit : brNextBit p r with
      | bit b r1 =>
        obtain ⟨-, -, hfuel⟩ := brNextBit_bit_moved (n := n) hbit
        simp only [feedBit]
        rcases decStep_cases p b r1.dec with
          ⟨d, hstep, -, -, -, hleft, -⟩ | ⟨v, d, hstep, -, -, -, -, -, hleft, -⟩ | ⟨hstep, -⟩ <;> rw [hstep]
        · exact ih (by simp only [readFuel, hleft] at hfuel h ⊢; omega)
        · exact ih (by simp only [readFuel, hleft] at hfuel h ⊢; omega)
      | endOfStream r1 => rfl
      | raised c r1 => rfl
      | blocked r1 => rfl

/-- More fuel than enough makes no difference. -/
theorem readLoop_fuel {p : Params} {fuel cap n : Nat} {r : Reader} (h : readFuel r ≤ fuel) :
    readLoop p fuel cap n r = readLoop p (readFuel r) cap n r := by
  induction fuel, h using Nat.le_induction with
  | base => rfl
  | succ fuel h ih => rw [readLoop_succ_fuel h, ih]

/-- Settles O36: the fuel is the bits that are left and one more. -/
theorem readFuelIsEnough : Obligations.ReadFuelIsEnough := fun _ _ _ _ _ =>
  readLoop_fuel (Nat.le_add_right _ _)

/-! ### DEC.READ -/

theorem exec_decRead_faulted {s : State} (cap : Nat) (hf : s.dec.fault = true) :
    exec (.decRead cap) s = .next (decRefuse .decFaulted s) := if_pos hf

theorem exec_decRead_runs {s : State} (cap : Nat) (hf : s.dec.fault = false) (hill : s.dec.illegal = false) :
    exec (.decRead cap) s = finishDec s (readLoop s.params (readFuel s.reader) cap 0 s.reader) := by
  simp [exec, execDecRead, hf, hill]

/-- A DEC.READ with a next state was refused on a faulted unit, or its loop ran (R89, R110). -/
theorem exec_decRead_ways {s t : State} {cap : Nat} (h : exec (.decRead cap) s = .next t) :
    (s.dec.fault = true ∧ t = decRefuse .decFaulted s) ∨
    (s.dec.fault = false ∧ s.dec.illegal = false ∧
      finishDec s (readLoop s.params (readFuel s.reader) cap 0 s.reader) = .next t) := by
  cases hf : s.dec.fault with
  | true =>
    rw [exec_decRead_faulted cap hf] at h
    cases h
    exact .inl ⟨rfl, rfl⟩
  | false =>
    cases hill : s.dec.illegal with
    | true => simp [exec, execDecRead, hf, hill] at h
    | false => exact .inr ⟨rfl, rfl, (exec_decRead_runs cap hf hill).symm.trans h⟩

/-- Settles O40: the capacity is tested before a bit is taken. -/
theorem readZeroAndRefusal : Obligations.ReadZeroAndRefusal := by
  refine fun s => ⟨exec_decRead_faulted, fun hf hill => ?_⟩
  rw [exec_decRead_runs 0 hf hill, readLoop_full (Nat.le_refl 0)]
  rfl

/-- Settles O35: with no bit loaded the latch answers for the source. -/
theorem exhaustionIsResignalled : Obligations.ExhaustionIsResignalled := by
  intro s cap heos hleft
  have hend : brNextBit s.params s.reader = .endOfStream s.reader := by simp [brNextBit, heos, hleft]
  refine ⟨hend, fun hf hill => ?_⟩
  rw [exec_decRead_runs cap hf hill]
  rcases Nat.eq_zero_or_pos cap with rfl | hcap
  · rw [readLoop_full (Nat.le_refl 0), State.reader_dec, heos]
    rfl
  · rw [readFuel, readLoop, if_pos hcap, hend]
    rfl

/-- Settles O41: the bit that stands loaded is the separator. -/
theorem overrangeFaults : Obligations.OverrangeFaults := by
  intro s cap hf hst hmax hpos hle hbit hcap
  have hill : s.dec.illegal = false := by simp [Dec.illegal, hst, hle]
  have hnext : brNextBit s.params s.reader =
      .bit true { s.reader with dec := { s.dec with left := s.dec.left - 1 } } := by
    simp [brNextBit, Nat.ne_of_gt hpos, takeLoaded, hbit]
  have hstep : decStep s.params true { s.dec with left := s.dec.left - 1 } = .raised .decOverrange
      { s.dec with left := s.dec.left - 1, fault := true, cause := .decOverrange } := by
    have hraise := decStep_separator_overrange (d := { s.dec with left := s.dec.left - 1 }) hst hmax
    rwa [decRaise, if_neg (by simp [hf])] at hraise
  rw [exec_decRead_runs cap hf hill, readFuel, readLoop, if_pos hcap, hnext]
  simp only [feedBit, hstep]
  rfl

/-- Settles O42: the first call of the source is the failure. -/
theorem sourceFailureFaults : Obligations.SourceFailureFaults := by
  intro s cap rest hf hill hleft heos hio hplan hcap
  have hread : sourceRead s.params s.source =
      (.fail, { s.source with trace := s.source.trace ++ [.fail], plan := rest }) := by
    simp [sourceRead, Source.turn, hplan, hio]
  have hnext : brNextBit s.params s.reader =
      .raised .ioFailSource
        { s.reader with
          dec := { s.dec with fault := true, cause := .ioFailSource }
          source := { s.source with trace := s.source.trace ++ [.fail], plan := rest } } := by
    simp [brNextBit, hleft, heos, hread, decRaise, hf]
  rw [exec_decRead_runs cap hf hill, readFuel, readLoop, if_pos hcap, hnext]
  rfl

/-- Settles O43, from what the loop keeps however it ends. -/
theorem readFrame : Obligations.ReadFrame := by
  intro s t cap h
  rcases exec_decRead_ways h with ⟨-, rfl⟩ | ⟨-, -, h⟩
  · exact ⟨rfl, rfl, rfl, rfl, rfl, ⟨[], rfl⟩, fun _ _ => rfl, fun _ _ _ => rfl, Nat.zero_le _, nofun,
      fun _ => ⟨rfl, rfl⟩, id⟩
  have hends := readLoop_endsFrom s.params (readFuel s.reader) cap 0 s.reader
  generalize readLoop s.params (readFuel s.reader) cap 0 s.reader = x at h hends
  cases x with
  | returned m e r1 =>
    obtain ⟨hmoved, -, hm, hfault, -, hend⟩ := hends
    obtain ⟨pulled, hpulled⟩ := hmoved.source.content
    obtain ⟨-, hslots⟩ := hmoved.slots (Nat.zero_le _)
    rw [Nat.zero_max] at hm
    cases h
    refine ⟨rfl, rfl, rfl, rfl, rfl, ⟨pulled, hpulled.symm⟩, fun j hj => hslots j (hm.trans hj),
      fun _ => hslots, hm, fun n e1 hread => ?_, fun _ => ⟨hfault.fault, hfault.cause⟩, hmoved.eos⟩
    cases hread
    exact hend (Nat.le_refl _)
  | faulted c m r1 =>
    obtain ⟨hmoved, -, hm⟩ := hends
    obtain ⟨pulled, hpulled⟩ := hmoved.source.content
    obtain ⟨-, hslots⟩ := hmoved.slots (Nat.zero_le _)
    rw [Nat.zero_max] at hm
    cases h
    exact ⟨rfl, rfl, rfl, rfl, rfl, ⟨pulled, hpulled.symm⟩, fun j hj => hslots j (hm.trans hj),
      fun _ => hslots, hm, nofun, fun hno => absurd rfl (hno c m), hmoved.eos⟩
  | blocked m r1 =>
    obtain ⟨hmoved, -, hm, hfault, -⟩ := hends
    obtain ⟨pulled, hpulled⟩ := hmoved.source.content
    obtain ⟨-, hslots⟩ := hmoved.slots (Nat.zero_le _)
    rw [Nat.zero_max] at hm
    cases h
    exact ⟨rfl, rfl, rfl, rfl, rfl, ⟨pulled, hpulled.symm⟩, fun j hj => hslots j (hm.trans hj),
      fun hno => absurd rfl hno, Nat.zero_le _, nofun, fun _ => ⟨hfault.fault, hfault.cause⟩, hmoved.eos⟩

/-- Settles O44: DEC.RST tests nothing and writes the unit, the list of answers and the report. -/
theorem decRstEffect : Obligations.DecRstEffect := fun _ =>
  ⟨_, rfl, rfl, rfl, rfl, rfl, rfl, rfl, rfl, rfl, rfl, rfl, rfl, rfl, rfl, rfl, rfl, rfl, rfl, rfl, rfl⟩

end Sys2Proof.Machine
end

section
/-! PROOFS. DEC.READ on a stream of codewords (spec/43_decoder_fsm.md R89, R90, R95, R96): the values that are
whole are stored, a cut codeword or zeros after them complete no value, and a read may be split in two. -/
namespace Sys2Proof

/-- The class of an integer in range is one that the block carries, also for a `W` too small for R8. -/
theorem nbits_le_nbitsMax_of_inRange {p : Params} {item : Int} (h : InRange p item) :
    nbits item ≤ p.nbitsMax := by
  by_cases hW : 3 ≤ p.W
  · exact nbits_le_nbitsMax (p := { p with PW := p.W, CAPW := 1 }) ⟨hW, Nat.le_refl _, Nat.le_refl _⟩ h
  · have hzero : item = 0 := by
      have hpow : (2 : Int) ^ (p.W - 1) ≤ 2 ^ 1 := pow_le_pow_right₀ (by decide) (by omega)
      obtain ⟨hlo, hhi⟩ := h
      rw [Params.magMax] at hlo hhi
      omega
    rw [(nbits_eq_zero_iff item).mpr hzero]
    exact Nat.zero_le _

namespace Machine

/-! ### Bits that complete no value -/

/-- Bits that complete no value leave fault and cause as they were (R85). -/
theorem quietRun_sameFault {p : Params} {bits : BitString} {d d1 : Dec} (h : quietRun p bits d = some d1) :
    d.SameFault d1 := by
  induction bits generalizing d with
  | nil => cases h; exact ⟨rfl, rfl⟩
  | cons b bits ih =>
    rw [quietRun] at h
    rcases decStep_cases p b d with ⟨d2, hstep, hfault, hcause, -⟩ | ⟨v, d2, hstep, -⟩ | ⟨hstep, -⟩ <;>
      simp only [hstep] at h
    · exact Dec.SameFault.trans ⟨hfault, hcause⟩ (ih h)
    all_goals cases h

/-- A part of bits that complete no value completes none. -/
theorem quietRun_of_isPrefix {p : Params} {xs ys : BitString} {d d1 : Dec} (hprefix : xs <+: ys)
    (h : quietRun p ys d = some d1) : ∃ d2, quietRun p xs d = some d2 := by
  induction xs generalizing ys d with
  | nil => exact ⟨d, rfl⟩
  | cons x xs ih =>
    obtain ⟨zs, rfl⟩ := hprefix
    rw [List.cons_append, quietRun] at h
    rw [quietRun]
    cases hstep : decStep p x d with
    | quiet d2 =>
      simp only [hstep] at h
      exact ih (List.prefix_append xs zs) h
    | emit v d2 => simp only [hstep] at h; cases h
    | raised c d2 => simp only [hstep] at h; cases h

/-- What may stand after the last whole value of a stream: a cut codeword or zeros (R90, R95). -/
def IsTail (p : Params) (tail : BitString) : Prop :=
  (∃ v, InRange p v ∧ tail <+: cw v ∧ tail ≠ cw v) ∨ tail = List.replicate tail.length false

theorem IsTail.zeros (p : Params) (k : Nat) : IsTail p (List.replicate k false) := .inr (by simp)

theorem IsTail.quietRun {p : Params} {tail : BitString} {d : Dec} (h : IsTail p tail)
    (hd : d.BetweenCodewords) : ∃ d1, quietRun p tail d = some d1 := by
  rcases h with ⟨v, hin, hprefix, hne⟩ | hzeros
  · obtain ⟨bits, last, d1, d2, hcw, hquiet, -⟩ := cw_emits hd (nbits_le_nbitsMax_of_inRange hin)
    rw [hcw] at hprefix hne
    rcases List.prefix_concat_iff.mp hprefix with heq | hcut
    · exact absurd heq hne
    · exact quietRun_of_isPrefix hcut hquiet
  · obtain ⟨hst, -⟩ := hd
    exact ⟨_, hzeros ▸ quietRun_zeros p _ d hst⟩

/-! ### The loop on a stream -/

/-- The end of a DEC.READ at exhaustion (R90): the latch is set and no bit is left. -/
structure Reader.Exhausted (r : Reader) : Prop where
  eos : r.dec.eos = true
  left : r.dec.left = 0
  content : r.source.content = []

/-- The loop takes a tail of the stream and ends at exhaustion (R90, R95). -/
theorem readLoop_tail {p : Params} {r : Reader} {d : Dec} {out : List Int} {tail : BitString} {cap n : Nat}
    (h : r.StandsAt p d out tail) (hd : d.BetweenCodewords) (htail : IsTail p tail) (hn : n < cap) :
    ∃ r1 : Reader, readLoop p (tail.length + 1) cap n r = .returned n true r1 ∧ r1.out = out ∧
      r1.dec.fault = false ∧ r1.Exhausted := by
  obtain ⟨d1, hquiet⟩ := htail.quietRun hd
  obtain ⟨-, -, -, -, hfault⟩ := hd
  rw [← List.append_nil tail] at h
  obtain ⟨r1, hloop, h1⟩ := readLoop_quietRun (fuel := 1) h hquiet hn
  have hfault1 : r1.dec.fault = false := by rw [h1.regs]; exact (quietRun_sameFault hquiet).fault.trans hfault
  rcases brNextBit_reliable p r1 h1.left_le h1.dec_eos h1.reliable with
    ⟨-, r2, hend, hdec, hout, hcontent, -, hleft⟩ | ⟨c, r2, -, hbits, -⟩
  · refine ⟨r2, ?_, hout.trans h1.out, by rw [hdec]; exact hfault1, by rw [hdec], by rw [hdec]; exact hleft,
      hcontent⟩
    rw [hloop, readLoop, if_pos hn, hend]
  · cases h1.bits.symm.trans hbits

theorem Reader.StandsAt.betweenCodewords {r : Reader} {p : Params} {d : Dec} {out : List Int}
    {bits : BitString} (h : r.StandsAt p d out bits) (hd : d.BetweenCodewords) : r.dec.BetweenCodewords := by
  obtain ⟨hst, hzc, -, heos, hfault⟩ := hd
  have hleft := h.left_le
  rw [h.regs]
  exact ⟨hst, hzc, hleft, heos, hfault⟩

theorem storedFrom_zero (vs out : List Int) : storedFrom 0 vs out = vs ++ out.drop vs.length := by
  rw [storedFrom, List.take_zero, List.nil_append, Nat.zero_add]

section Stream
variable {s : State} {vs : List Int} {rest : BitString} (hd : s.dec.BetweenCodewords)
  (hr : s.source.Reliable s.params) (hvs : ∀ v ∈ vs, InRange s.params v) (hbits : s.reader.bits = cws vs ++ rest)
include hd hr hvs hbits

/-- DEC.READ with room for the values in front of the reader, and the loop that is left after them (R89). -/
theorem exec_decRead_cws {cap : Nat} (hcap : vs.length ≤ cap) :
    ∃ (r : Reader) (d : Dec),
      exec (.decRead cap) s = finishDec s (readLoop s.params (rest.length + 1) cap vs.length r) ∧
      r.StandsAt s.params d (vs ++ s.out.drop vs.length) rest ∧ d.BetweenCodewords := by
  have h := Reader.standsAt_self (r := s.reader) hd hr
  rw [hbits] at h
  obtain ⟨r1, d1, hloop, h1, hd1⟩ := readLoop_cws (fuel := rest.length + 1) (cap := cap) h hd
    (fun v hv => nbits_le_nbitsMax_of_inRange (hvs v hv)) (Nat.zero_le _) (by omega)
  rw [storedFrom_zero] at h1
  refine ⟨r1, d1, ?_, h1, hd1⟩
  rw [exec_decRead_between cap hd, readFuel_eq, hbits, List.length_append, Nat.add_assoc, hloop, Nat.zero_add]

/-- DEC.READ of as many values as the stream begins with (R89). -/
theorem exec_decRead_whole :
    ∃ (r : Reader) (d : Dec),
      exec (.decRead vs.length) s = .next ((s.withReader r).withDecResult (.read vs.length false)) ∧
      r.StandsAt s.params d (vs ++ s.out.drop vs.length) rest ∧ d.BetweenCodewords := by
  obtain ⟨r, d, hexec, h, hd1⟩ := exec_decRead_cws hd hr hvs hbits (Nat.le_refl vs.length)
  exact ⟨r, d, by rw [hexec, readLoop_full (Nat.le_refl _), h.dec_eos, finishDec], h, hd1⟩

/-- DEC.READ of more values than stand before a tail (R90, R95). -/
theorem exec_decRead_tail {cap : Nat} (htail : IsTail s.params rest) (hcap : vs.length < cap) :
    ∃ r : Reader, exec (.decRead cap) s = .next ((s.withReader r).withDecResult (.read vs.length true)) ∧
      r.out = vs ++ s.out.drop vs.length ∧ r.dec.fault = false ∧ r.Exhausted := by
  obtain ⟨r, d, hexec, h, hd1⟩ := exec_decRead_cws hd hr hvs hbits hcap.le
  obtain ⟨r1, hloop, hout, hfault, hend⟩ := readLoop_tail h hd1 htail hcap
  exact ⟨r1, by rw [hexec, hloop, finishDec], hout, hfault, hend⟩

end Stream

/-- Settles O37: with room for just the values in front, the loop is full behind them. -/
theorem readDecodesStream : Obligations.ReadDecodesStream := by
  intro s vs rest hd hr hvs hbits
  obtain ⟨r, d, hexec, h, hd1⟩ := exec_decRead_whole hd hr hvs hbits
  have hout : ((s.withReader r).withDecResult (.read vs.length false)).out = vs ++ s.out.drop vs.length := h.out
  exact ⟨_, hexec, rfl, by rw [hout, List.take_left], by rw [hout, List.drop_left], h.bits,
    h.betweenCodewords hd1, rfl, rfl, rfl, rfl, rfl⟩

/-- Settles O38: the loop has room left behind the values, takes the tail and ends at exhaustion. -/
theorem truncatedTailIsDropped : Obligations.TruncatedTailIsDropped := by
  intro s vs tail cap hd hr hvs hbits htail hcap
  obtain ⟨r, hexec, hrout, hfault, hend⟩ := exec_decRead_tail hd hr hvs hbits htail hcap
  have hout : ((s.withReader r).withDecResult (.read vs.length true)).out = vs ++ s.out.drop vs.length := hrout
  exact ⟨_, hexec, rfl, by rw [hout, List.take_left], by rw [hout, List.drop_left], hfault, hend.eos, hend.left,
    hend.content⟩

/-! ### A read split in two -/

/-- A loop with more room goes on where the loop with less room was full (R89). -/
theorem readLoop_resumes {p : Params} {fuel a cap n : Nat} {e : Bool} {r r1 : Reader}
    (h : readLoop p fuel a n r = .returned a e r1) (hn : n ≤ a) (hcap : a ≤ cap) (hfuel : readFuel r ≤ fuel) :
    ∃ fuel1, readFuel r1 ≤ fuel1 ∧ readLoop p fuel cap n r = readLoop p fuel1 cap a r1 := by
  induction fuel generalizing n r with
  | zero => simp [readFuel] at hfuel
  | succ fuel ih =>
    rcases Nat.eq_or_lt_of_le hn with rfl | hlt
    · rw [readLoop_full (Nat.le_refl n)] at h
      cases h
      exact ⟨_, hfuel, rfl⟩
    · rw [readLoop, if_pos hlt] at h
      rw [readLoop, if_pos (hlt.trans_le hcap)]
      cases hbit : brNextBit p r with simp only [hbit] at h
      | endOfStream r2 => cases h; exact absurd hlt (Nat.lt_irrefl _)
      | raised c r2 => cases h
      | blocked r2 => cases h
      | bit b r2 =>
        obtain ⟨-, -, hfuel2⟩ := brNextBit_bit_moved (n := n) hbit
        simp only [feedBit] at h ⊢
        rcases decStep_cases p b r2.dec with
          ⟨d, hstep, -, -, -, hleft, -⟩ | ⟨v, d, hstep, -, -, -, -, -, hleft, -⟩ | ⟨hstep, -⟩ <;>
          simp only [hstep] at h ⊢
        · exact ih h hn (by simp only [readFuel, hleft] at hfuel hfuel2 ⊢; omega)
        · exact ih h hlt (by simp only [readFuel, hleft] at hfuel hfuel2 ⊢; omega)
        · cases h

/-- BR.NEXTBIT neither reads nor writes the output buffer (R82). -/
def BrResult.withOut (x : BrResult) (out : List Int) : BrResult :=
  match x with
  | .bit b r => .bit b { r with out := out }
  | .endOfStream r => .endOfStream { r with out := out }
  | .raised c r => .raised c { r with out := out }
  | .blocked r => .blocked { r with out := out }

theorem brNextBit_withOut (p : Params) (r : Reader) (out : List Int) :
    brNextBit p { r with out := out } = (brNextBit p r).withOut out := by
  simp only [brNextBit]
  split
  · split
    · rfl
    · generalize sourceRead p r.source = answer
      obtain ⟨a, k⟩ := answer
      cases a <;> rfl
  · rfl

/-- Two output buffers that got the same `n` values, the one of them behind the values `before` (R96). -/
def StoredAlike (before : List Int) (n : Nat) (out1 out : List Int) : Prop :=
  ∃ vs, vs.length = n ∧ before ++ vs <+: out1 ∧ vs <+: out

theorem isPrefix_writeSlot {vs out : List Int} (v : Int) (h : vs <+: out) :
    vs ++ [v] <+: writeSlot vs.length v out := by
  obtain ⟨zs, rfl⟩ := h
  exact ⟨(vs ++ zs).drop (vs.length + 1), by rw [writeSlot, List.take_left, List.append_assoc]; rfl⟩

theorem StoredAlike.writeSlot {before out1 out : List Int} {n : Nat} (v : Int)
    (h : StoredAlike before n out1 out) :
    StoredAlike before (n + 1) (writeSlot (before.length + n) v out1) (writeSlot n v out) := by
  obtain ⟨vs, rfl, h1, h⟩ := h
  refine ⟨vs ++ [v], by simp, ?_, isPrefix_writeSlot v h⟩
  rw [← List.append_assoc, ← List.length_append]
  exact isPrefix_writeSlot v h1

/-- Two ends of the loop, the one of them with the values `before` counted and stored before (R96). -/
inductive ReadEnd.Shifted (before : List Int) : ReadEnd → ReadEnd → Prop where
  | returned {n : Nat} (e : Bool) {r : Reader} {out1 : List Int} (h : StoredAlike before n out1 r.out) :
      Shifted before (.returned (before.length + n) e { r with out := out1 }) (.returned n e r)
  | faulted {n : Nat} (c : OutcomeCode) {r : Reader} {out1 : List Int} (h : StoredAlike before n out1 r.out) :
      Shifted before (.faulted c (before.length + n) { r with out := out1 }) (.faulted c n r)
  | blocked {n : Nat} {r : Reader} {out1 : List Int} (h : StoredAlike before n out1 r.out) :
      Shifted before (.blocked (before.length + n) { r with out := out1 }) (.blocked n r)

/-- The loop does not ask which values were stored before it (R96). -/
theorem readLoop_shifted {p : Params} {fuel cap n : Nat} {r : Reader} {before out1 : List Int}
    (h : StoredAlike before n out1 r.out) :
    (readLoop p fuel (before.length + cap) (before.length + n) { r with out := out1 }).Shifted before
      (readLoop p fuel cap n r) := by
  induction fuel generalizing n r out1 with
  | zero => exact .returned _ h
  | succ fuel ih =>
    rw [readLoop, readLoop]
    by_cases hn : n < cap
    · rw [if_pos hn, if_pos (by omega), brNextBit_withOut]
      have hends := brNextBit_endsFrom p r
      cases hbit : brNextBit p r with rw [hbit] at hends
      | endOfStream r1 =>
        obtain ⟨-, hout, -⟩ := hends
        exact .returned true (hout ▸ h)
      | raised c r1 =>
        obtain ⟨-, hout, -⟩ := hends
        exact .faulted c (hout ▸ h)
      | blocked r1 =>
        obtain ⟨-, hout, -⟩ := hends
        exact .blocked (hout ▸ h)
      | bit b r1 =>
        obtain ⟨-, hout, -⟩ := hends
        rw [← hout] at h
        simp only [BrResult.withOut, feedBit]
        cases hstep : decStep p b r1.dec with
        | quiet d => exact ih (r := { r1 with dec := d }) h
        | emit v d => exact ih (r := { r1 with dec := d, out := writeSlot n v r1.out }) (h.writeSlot v)
        | raised c d => exact .faulted (r := { r1 with dec := d }) c h
    · rw [if_neg hn, if_neg (by omega)]
      exact .returned _ h

theorem StoredAlike.take {before out1 out : List Int} {n : Nat} (h : StoredAlike before n out1 out) :
    out1.take before.length = before ∧ (out1.drop before.length).take n = out.take n := by
  obtain ⟨vs, rfl, ⟨zs, rfl⟩, ⟨ys, rfl⟩⟩ := h
  rw [List.append_assoc, List.take_left, List.drop_left, List.take_left, List.take_left]
  exact ⟨rfl, rfl⟩

/-- What the host sees of a read whose loop ends as another with some values counted before it (R96). -/
theorem ReadEnd.Shifted.finishDec {before : List Int} {x y : ReadEnd} {s t u : State} (h : x.Shifted before y)
    (hy : finishDec t y = .next u) :
    ∃ v, finishDec s x = .next v ∧ v.dec = u.dec ∧ v.source = u.source ∧
      v.decPort.result = u.decPort.result.shift before.length ∧ v.out.take before.length = before ∧
      (v.out.drop before.length).take u.decPort.result.count = u.out.take u.decPort.result.count := by
  cases h with
  | returned e h =>
    cases hy
    exact ⟨_, rfl, rfl, rfl, rfl, h.take⟩
  | faulted c h =>
    cases hy
    exact ⟨_, rfl, rfl, rfl, rfl, h.take⟩
  | blocked h =>
    obtain ⟨htake, -⟩ := h.take
    cases hy
    exact ⟨_, rfl, rfl, rfl, rfl, htake, rfl⟩

/-- A DEC.READ that reports its count returned from its loop with it (R89). -/
theorem exec_decRead_returned {s t : State} {cap n : Nat} {e : Bool} (h : exec (.decRead cap) s = .next t)
    (hresult : t.decPort.result = .read n e) :
    s.dec.fault = false ∧ s.dec.illegal = false ∧
      ∃ r, t = (s.withReader r).withDecResult (.read n e) ∧
        readLoop s.params (readFuel s.reader) cap 0 s.reader = .returned n e r := by
  rcases exec_decRead_ways h with ⟨-, rfl⟩ | ⟨hf, hill, hend⟩
  · cases hresult
  · refine ⟨hf, hill, ?_⟩
    cases hloop : readLoop s.params (readFuel s.reader) cap 0 s.reader with rw [hloop] at hend
    | returned m e1 r => cases hend; cases hresult; exact ⟨r, rfl, rfl⟩
    | faulted c m r => cases hend; cases hresult
    | blocked m r => cases hend; cases hresult

/-- Settles O39: the loop of the joined read goes on where the first read was full, and then it is the loop of the
second read behind the first's values. -/
theorem readsMayBeSplit : Obligations.ReadsMayBeSplit := by
  intro s t u a b e hfirst hfull hsecond
  obtain ⟨hf, hill, r, rfl, hloop⟩ := exec_decRead_returned hfirst hfull
  have hends := readLoop_endsFrom s.params (readFuel s.reader) a 0 s.reader
  rw [hloop] at hends
  obtain ⟨hmoved, -, -, hfault, -⟩ := hends
  obtain ⟨hlen, -⟩ := hmoved.slots (Nat.zero_le _)
  have hfirstLen : (r.out.take a).length = a := List.length_take_of_le hlen
  rcases exec_decRead_ways hsecond with ⟨hfaulted, -⟩ | ⟨-, -, hend⟩
  · cases hfaulted.symm.trans (hfault.fault.trans hf)
  · obtain ⟨fuel1, hfuel1, hresume⟩ :=
      readLoop_resumes hloop (Nat.zero_le a) (Nat.le_add_right a b) (Nat.le_refl _)
    have hshift := readLoop_shifted (p := s.params) (fuel := readFuel r) (cap := b) (n := 0) (r := r)
      (before := r.out.take a) (out1 := r.out) ⟨[], rfl, by simpa using List.take_prefix a r.out, List.nil_prefix⟩
    obtain ⟨v, hv, hdec, hsource, hresult, hbelow, habove⟩ := hshift.finishDec (s := s) hend
    rw [hfirstLen] at hv hresult hbelow habove
    refine ⟨v, ?_, hdec, hsource, hresult, hbelow, habove⟩
    rw [exec_decRead_runs _ hf hill, hresume, readLoop_fuel hfuel1]
    exact hv

end Machine

end Sys2Proof
end

section
/-! PROOFS. The codeword classes as instructions (spec/30_encoding.md R53, R56; spec/43_decoder_fsm.md R85 to R89):
what they make the FSM do, and DEC.READ 1 as the codeword at its reader. -/
namespace Sys2Proof.Machine

/-- A codeword row is the meaning of its bits (R53). -/
theorem exec_codeword {i : Instr} {k m : Nat} {neg : Bool} (s : State)
    (h : codewordFields i = some (k, m, neg)) : exec i s = execCodeword (codewordBits k m neg) s := by
  cases i <;> cases h <;> rfl

theorem execCodeword_faulted {s : State} (bits : BitString) (hf : s.dec.fault = true) :
    execCodeword bits s = .next (decRefuse .decFaulted s) := if_pos hf

theorem execCodeword_between {s : State} (bits : BitString) (hd : s.dec.BetweenCodewords) :
    execCodeword bits s = finishDec s (feedBits s.params bits 0 s.reader) := by
  obtain ⟨hst, -, hleft, heos, hfault⟩ := hd
  have hlegal : s.dec.illegal = false := by simp [Dec.illegal, hst, hleft]
  simp [execCodeword, hfault, hlegal, heos]

/-! ### Between two codewords -/

/-- Settles O45: all bits but the last complete no value, and the last emits it. -/
theorem codewordEmitsItsValue : Obligations.CodewordEmitsItsValue := by
  intro s i k m neg hfields hd hk
  obtain ⟨-, hm⟩ := codewordInstr_of_codewordFields hfields
  obtain ⟨bits, last, d1, hbits, hquiet, hstep⟩ := codewordBits_emits s.params neg hd hk hm
  have hfeed : feedBits s.params (codewordBits k m neg) 0 s.reader =
      .returned 1 s.dec.eos
        { dec := s.dec.afterCodeword k m, source := s.source, out := writeSlot 0 (codewordValue k m neg) s.out } := by
    have heos : (s.dec.afterCodeword k m).eos = s.dec.eos := by rw [Dec.afterCodeword]; split <;> rfl
    rw [hbits, feedBits_quiet s.params bits [last] 0 s.reader d1 hquiet]
    simp only [feedBits, feedBit, hstep, heos]
    rfl
  obtain ⟨-, -, -, heos, -⟩ := id hd
  rw [exec_codeword s hfields, execCodeword_between _ hd, hfeed, heos]
  rfl

/-- Settles O46: the leading zeros are counted, and the separator behind them is the fault. -/
theorem codewordOverrangeFaults : Obligations.CodewordOverrangeFaults := by
  intro s i k m neg hfields hd hk
  obtain ⟨hst, hzc, -, -, hf⟩ := id hd
  have hstep : decStep s.params true { s.dec with zc := k } = .raised .decOverrange
      { s.dec with zc := k, fault := true, cause := .decOverrange } := by
    have hraise := decStep_separator_overrange (d := { s.dec with zc := k }) hst hk
    rwa [decRaise, if_neg (by simp [hf])] at hraise
  have hzeros := quietRun_zeros s.params k s.dec hst
  rw [hzc, Nat.zero_add] at hzeros
  rw [exec_codeword s hfields, execCodeword_between _ hd, codewordBits_of_pos m neg (by omega),
    feedBits_quiet s.params _ _ 0 s.reader _ hzeros]
  simp only [feedBits, feedBit, hstep]
  rfl

/-- Settles O48: DEC.READ 1 takes the bits of the codeword from the reader and makes of them what the codeword's
instruction makes. -/
theorem readRunsTheCodeword : Obligations.ReadRunsTheCodeword := by
  intro s i k m neg rest hfields hd hk hr hbits
  obtain ⟨-, hm⟩ := codewordInstr_of_codewordFields hfields
  obtain ⟨bits, last, d1, hcw, hquiet, hstep⟩ := codewordBits_emits s.params neg hd hk hm
  have h := Reader.standsAt_self (r := s.reader) hd hr
  rw [hbits, hcw, List.append_assoc] at h
  obtain ⟨r2, hloop2, h2⟩ := readLoop_quietRun (fuel := rest.length + 1 + 1) h hquiet Nat.zero_lt_one
  obtain ⟨r1, hloop1, h1⟩ := readLoop_emit (fuel := rest.length + 1) h2 hstep Nat.zero_lt_one
  have hloop : readLoop s.params (readFuel s.reader) 1 0 s.reader = .returned 1 false r1 := by
    rw [readFuel_eq, hbits, hcw, List.length_append, List.length_append, List.length_singleton, Nat.add_assoc,
      Nat.add_assoc, Nat.add_comm 1, hloop2, hloop1, readLoop_full (Nat.le_refl _), h1.dec_eos]
  have hexec : exec (.decRead 1) s = .next ((s.withReader r1).withDecResult (.read 1 false)) := by
    rw [exec_decRead_between 1 hd, hloop, finishDec]
  exact ⟨_, _, hexec, codewordEmitsItsValue s i k m neg hfields hd hk, h1.out, rfl, h1.regs, h1.bits, rfl, rfl,
    rfl⟩

/-! ### In every state -/

/-- What a codeword's bits keep in whatever state the FSM is in: the reader's registers, the source, and the slots
from the count on (R85). -/
def ReadEnd.FedFrom (x : ReadEnd) (p : Params) (n : Nat) (r : Reader) : Prop :=
  match x with
  | .returned m _ r1 => r.Moved p n m r1 ∧ n ≤ m ∧ r.dec.SameFault r1.dec ∧ r.dec.SameLoaded r1.dec ∧
      r1.source = r.source
  | .faulted _ m r1 => r.Moved p n m r1 ∧ n ≤ m ∧ r.dec.SameLoaded r1.dec ∧ r1.source = r.source
  | .blocked _ _ => False

theorem Dec.SameLoaded.trans {d d1 d2 : Dec} (h1 : d.SameLoaded d1) (h2 : d1.SameLoaded d2) : d.SameLoaded d2 :=
  ⟨h2.cur.trans h1.cur, h2.left.trans h1.left, h2.eos.trans h1.eos⟩

theorem feedBits_fedFrom (p : Params) (bits : BitString) (n : Nat) (r : Reader) :
    (feedBits p bits n r).FedFrom p n r := by
  induction bits generalizing n r with
  | nil => exact ⟨.refl p r n, Nat.le_refl n, ⟨rfl, rfl⟩, ⟨rfl, rfl, rfl⟩, rfl⟩
  | cons b bits ih =>
    rw [feedBits]
    rcases feedBit_ways p b n r (feedBits p bits) with
      ⟨m, r1, hfeed, hmoved, hle, -, hfault, hloaded, hsource⟩ | ⟨hfeed, hmoved⟩ <;> rw [hfeed]
    · have hrest := ih m r1
      cases hx : feedBits p bits m r1 with rw [hx] at hrest
      | returned l e r2 =>
        obtain ⟨hmoved1, hle1, hfault1, hloaded1, hsource1⟩ := hrest
        exact ⟨hmoved.trans hmoved1 hle1, hle.trans hle1, hfault.trans hfault1, hloaded.trans hloaded1,
          hsource1.trans hsource⟩
      | faulted c l r2 =>
        obtain ⟨hmoved1, hle1, hloaded1, hsource1⟩ := hrest
        exact ⟨hmoved.trans hmoved1 hle1, hle.trans hle1, hloaded.trans hloaded1, hsource1.trans hsource⟩
      | blocked l r2 => exact hrest
    · exact ⟨hmoved, Nat.le_refl n, decRaise_sameLoaded _ _, rfl⟩

/-- A codeword with a next state was refused on a faulted unit, or reported from the bits it fed or from the latch
(R84, R91). -/
theorem execCodeword_ways {s t : State} {bits : BitString} (h : execCodeword bits s = .next t) :
    (s.dec.fault = true ∧ t = decRefuse .decFaulted s) ∨
    (s.dec.fault = false ∧ ∃ x : ReadEnd, x.FedFrom s.params 0 s.reader ∧ finishDec s x = .next t) := by
  cases hf : s.dec.fault with
  | true =>
    rw [execCodeword_faulted bits hf] at h
    cases h
    exact .inl ⟨rfl, rfl⟩
  | false =>
    rw [execCodeword, if_neg (by simp [hf])] at h
    split_ifs at h with hill heos
    · refine .inr ⟨rfl, _, ?_, h⟩
      exact ⟨.refl _ _ 0, Nat.le_refl 0, ⟨rfl, rfl⟩, ⟨rfl, rfl, rfl⟩, rfl⟩
    · exact .inr ⟨rfl, _, feedBits_fedFrom s.params bits 0 s.reader, h⟩

/-- Settles O47, from what the codeword's bits keep. -/
theorem codewordFrame : Obligations.CodewordFrame := by
  intro s t i hsome h
  obtain ⟨⟨k, m, neg⟩, hfields⟩ := Option.isSome_iff_exists.mp hsome
  rw [exec_codeword s hfields] at h
  rcases execCodeword_ways h with ⟨-, rfl⟩ | ⟨-, x, hx, h⟩
  · exact ⟨rfl, rfl, rfl, rfl, rfl, rfl, rfl, rfl, rfl, rfl, fun _ => ⟨rfl, rfl⟩, fun _ _ => rfl⟩
  cases x with
  | blocked l r => exact hx.elim
  | returned l e r =>
    obtain ⟨hmoved, -, hfault, hloaded, hsource⟩ := hx
    obtain ⟨-, hslots⟩ := hmoved.slots (Nat.zero_le _)
    cases h
    exact ⟨rfl, rfl, rfl, rfl, hsource, rfl, hloaded.cur, hloaded.left, hloaded.eos, rfl,
      fun _ => ⟨hfault.fault, hfault.cause⟩, hslots⟩
  | faulted c l r =>
    obtain ⟨hmoved, -, hloaded, hsource⟩ := hx
    obtain ⟨-, hslots⟩ := hmoved.slots (Nat.zero_le _)
    cases h
    exact ⟨rfl, rfl, rfl, rfl, hsource, rfl, hloaded.cur, hloaded.left, hloaded.eos, rfl,
      fun hno => absurd rfl (hno c l), hslots⟩

end Sys2Proof.Machine
end

section
/-! PROOFS. The machine (spec/10_state.md R14, R19, R21; spec/30_encoding.md R63, R64; spec/60_exceptions.md R107,
R108, R119; spec/70_reset_and_hazards.md R134): what one step runs, the frame of each unit's instructions, the
invariant, and the independence of the two units. -/
namespace Sys2Proof

theorem Instr.of_unit_enc {i : Instr} (h : i.unit = .enc) :
    i = .encNop ∨ (i = .encClose ∨ ∃ item, i = .encPut item) ∨ i = .encRst := by
  cases i with
  | encNop => exact .inl rfl
  | encPut item => exact .inr (.inl (.inr ⟨item, rfl⟩))
  | encClose => exact .inr (.inl (.inl rfl))
  | encRst => exact .inr (.inr rfl)
  | _ => cases h

theorem Instr.of_unit_dec {i : Instr} (h : i.unit = .dec) :
    i = .decNop ∨ (∃ cap, i = .decRead cap) ∨ i = .decRst ∨ ∃ k m neg, codewordFields i = some (k, m, neg) := by
  cases hfields : codewordFields i with
  | some f => exact .inr (.inr (.inr ⟨f.1, f.2.1, f.2.2, rfl⟩))
  | none =>
    cases i <;> cases hfields
    case none.decNop.refl => exact .inl rfl
    case none.decRead.refl cap => exact .inr (.inl ⟨cap, rfl⟩)
    case none.decRst.refl => exact .inr (.inr (.inl rfl))
    all_goals cases h

namespace Machine

/-! ### What a step runs -/

theorem fetch_encCmd {s : State} {code : BitVec 2} {item : Nat} {rest : List HostLine}
    (hp : s.pending = .encCmd code item :: rest) (hb : s.encPort.busy = false) :
    fetch s = .instr (decodeEncCmd s.params code item) { s with pending := rest } := by
  simp [fetch, hp, hb]

theorem fetch_decCmd {s : State} {code : BitVec 2} {cap : Nat} {rest : List HostLine} {i : Instr}
    (hp : s.pending = .decCmd code cap :: rest) (hb : s.decPort.busy = false)
    (hi : decodeDecCmd s.params code cap = .ok i) : fetch s = .instr i { s with pending := rest } := by
  simp [fetch, hp, hb, hi]

theorem fetch_reserved {s : State} {code : BitVec 2} {cap : Nat} {rest : List HostLine} {e : DecodeError}
    (hp : s.pending = .decCmd code cap :: rest) (hb : s.decPort.busy = false)
    (he : decodeDecCmd s.params code cap = .error e) :
    fetch s = .passed (decRefuse .reservedCmd { s with pending := rest }) := by
  simp [fetch, hp, hb, he]

theorem fetch_encCmd_busy {s : State} {code : BitVec 2} {item : Nat} {rest : List HostLine}
    (hp : s.pending = .encCmd code item :: rest) (hb : s.encPort.busy = true) :
    fetch s = .passed (encRefuseBusy { s with pending := rest }) := by
  simp [fetch, hp, hb]

theorem fetch_decCmd_busy {s : State} {code : BitVec 2} {cap : Nat} {rest : List HostLine}
    (hp : s.pending = .decCmd code cap :: rest) (hb : s.decPort.busy = true) :
    fetch s = .passed (decRefuseBusy { s with pending := rest }) := by
  simp [fetch, hp, hb]

theorem fetch_src {s : State} {bytes : List Byte} {rest : List HostLine} (hp : s.pending = .src bytes :: rest) :
    fetch s = .passed { s with pending := rest, source := { s.source with content := bytes } } := by
  simp [fetch, hp]

theorem fetch_nil {s : State} (hp : s.pending = []) : fetch s = .idle := by simp [fetch, hp]

theorem step_of_idle {s : State} (h : fetch s = .idle) : step s = .next s := by rw [step, h]

theorem step_of_passed {s t : State} (h : fetch s = .passed t) : step s = .next t := by rw [step, h]

theorem step_of_instr {i : Instr} {s t : State} (h : fetch s = .instr i t) : step s = exec i t := by
  rw [step, h]

/-- Settles O49, from what is fetched when a command is next. -/
theorem stepRunsTheDecodedCommand : Obligations.StepRunsTheDecodedCommand :=
  ⟨fun _ _ _ _ hp hb => step_of_instr (fetch_encCmd hp hb),
    fun _ _ _ _ _ hp hb hi => step_of_instr (fetch_decCmd hp hb hi)⟩

/-- Settles O50, from what is fetched in each of the five cases. -/
theorem stepWithoutInstruction : Obligations.StepWithoutInstruction :=
  ⟨fun _ hp => step_of_idle (fetch_nil hp), fun _ _ _ hp => step_of_passed (fetch_src hp),
    fun _ _ _ hp hb => step_of_passed (fetch_reserved hp hb rfl),
    fun _ _ _ _ hp hb => step_of_passed (fetch_encCmd_busy hp hb),
    fun _ _ _ _ hp hb => step_of_passed (fetch_decCmd_busy hp hb)⟩

theorem decodeEncCmd_unit (p : Params) (code : BitVec 2) (item : Nat) :
    (decodeEncCmd p code item).unit = .enc := by
  rw [decodeEncCmd]
  split_ifs <;> rfl

/-- What the port of unit DEC decodes is one of its commands (R63). -/
theorem of_decodeDecCmd {p : Params} {code : BitVec 2} {cap : Nat} {i : Instr}
    (h : decodeDecCmd p code cap = .ok i) : i = .decNop ∨ (∃ n, i = .decRead n) ∨ i = .decRst := by
  rw [decodeDecCmd] at h
  split_ifs at h <;> cases h
  · exact .inl rfl
  · exact .inr (.inl ⟨_, rfl⟩)
  · exact .inr (.inr rfl)

/-- The registers and records that no line without an instruction writes. -/
structure State.SameUnits (s t : State) : Prop where
  params : t.params = s.params
  enc : t.enc = s.enc
  encBusy : t.encPort.busy = s.encPort.busy
  sink : t.sink = s.sink
  dec : t.dec = s.dec

/-- Everything a step can do (R64, R108, R121): no instruction and no change of a unit, or a command of unit ENC
when that unit is ready, or a command of unit DEC. -/
theorem step_ways (s : State) :
    (∃ t, step s = .next t ∧ s.SameUnits t) ∨
    (∃ i rest, step s = exec i { s with pending := rest } ∧ i.unit = .enc ∧ s.encPort.busy = false) ∨
    (∃ i rest, step s = exec i { s with pending := rest } ∧ i.unit = .dec ∧
      (i = .decNop ∨ (∃ cap, i = .decRead cap) ∨ i = .decRst)) := by
  cases hp : s.pending with
  | nil => exact .inl ⟨s, step_of_idle (fetch_nil hp), rfl, rfl, rfl, rfl, rfl⟩
  | cons line rest =>
    cases line with
    | src bytes => exact .inl ⟨_, step_of_passed (fetch_src hp), rfl, rfl, rfl, rfl, rfl⟩
    | encCmd code item =>
      cases hb : s.encPort.busy with
      | true => exact .inl ⟨_, step_of_passed (fetch_encCmd_busy hp hb), rfl, rfl, rfl, rfl, rfl⟩
      | false => exact .inr (.inl ⟨_, rest, step_of_instr (fetch_encCmd hp hb), decodeEncCmd_unit _ _ _, rfl⟩)
    | decCmd code cap =>
      cases hb : s.decPort.busy with
      | true => exact .inl ⟨_, step_of_passed (fetch_decCmd_busy hp hb), rfl, rfl, rfl, rfl, rfl⟩
      | false =>
        cases hi : decodeDecCmd s.params code cap with
        | error e => exact .inl ⟨_, step_of_passed (fetch_reserved hp hb hi), rfl, rfl, rfl, rfl, rfl⟩
        | ok i =>
          have hcmd := of_decodeDecCmd hi
          refine .inr (.inr ⟨i, rest, step_of_instr (fetch_decCmd hp hb hi), ?_, hcmd⟩)
          rcases hcmd with rfl | ⟨n, rfl⟩ | rfl <;> rfl

/-! ### The frame of each unit's instructions -/

/-- Two states with the same unit DEC, environment of it, and parameters. -/
structure State.SameDecSide (s t : State) : Prop where
  params : t.params = s.params
  dec : t.dec = s.dec
  decPort : t.decPort = s.decPort
  source : t.source = s.source
  out : t.out = s.out

/-- Two states with the same unit ENC, environment of it, parameters and host lines. -/
structure State.SameEncSide (s t : State) : Prop where
  params : t.params = s.params
  enc : t.enc = s.enc
  encPort : t.encPort = s.encPort
  sink : t.sink = s.sink
  pending : t.pending = s.pending

/-- An instruction of unit ENC leaves the side of unit DEC alone, and what the sink took stays (R20, R37). -/
theorem exec_enc_frame {i : Instr} {s t : State} (hi : i.unit = .enc) (h : exec i s = .next t) :
    s.SameDecSide t ∧ s.delivered <+: t.delivered := by
  rcases Instr.of_unit_enc hi with rfl | hput | rfl
  · cases h
    exact ⟨⟨rfl, rfl, rfl, rfl, rfl⟩, List.prefix_rfl⟩
  · obtain ⟨hparams, hdec, hdecPort, hsource, hout, -, hpast, htrace, -⟩ := putAndCloseFrame s t i hput h
    refine ⟨⟨hparams, hdec, hdecPort, hsource, hout⟩, ?_⟩
    rw [State.delivered, State.delivered, hpast]
    exact (List.prefix_append_right_inj _).mpr htrace
  · cases h
    exact ⟨⟨rfl, rfl, rfl, rfl, rfl⟩, List.prefix_append _ _⟩

/-- An instruction of unit DEC leaves the side of unit ENC alone (R20). -/
theorem exec_dec_frame {i : Instr} {s t : State} (hi : i.unit = .dec) (h : exec i s = .next t) :
    s.SameEncSide t := by
  rcases Instr.of_unit_dec hi with rfl | ⟨cap, rfl⟩ | rfl | ⟨k, m, neg, hfields⟩
  · cases h
    exact ⟨rfl, rfl, rfl, rfl, rfl⟩
  · obtain ⟨hparams, henc, hencPort, hsink, hpending, -⟩ := readFrame s t cap h
    exact ⟨hparams, henc, hencPort, hsink, hpending⟩
  · cases h
    exact ⟨rfl, rfl, rfl, rfl, rfl⟩
  · obtain ⟨hparams, henc, hencPort, hsink, -, hpending, -⟩ := codewordFrame s t i (by rw [hfields]; rfl) h
    exact ⟨hparams, henc, hencPort, hsink, hpending⟩

/-- Settles O56: only ENC.PUT, ENC.CLOSE and ENC.RST touch the record of what the sink took. -/
theorem sinkOnlyGrows : Obligations.SinkOnlyGrows := by
  intro s t h
  rcases step_ways s with ⟨t1, hstep, hsame⟩ | ⟨i, rest, hstep, hunit, -⟩ | ⟨i, rest, hstep, hunit, -⟩ <;>
    rw [hstep] at h
  · cases h
    exact ⟨by rw [State.delivered, State.delivered, hsame.sink], hsame.params⟩
  · obtain ⟨hsame, hgrows⟩ := exec_enc_frame hunit h
    exact ⟨hgrows, hsame.params⟩
  · have hsame := exec_dec_frame hunit h
    exact ⟨by rw [State.delivered, State.delivered, hsame.sink], hsame.params⟩

/-- Settles O54: a faulted unit refuses, and the other unit's instructions leave it alone. -/
theorem faultsAreSticky : Obligations.FaultsAreSticky := by
  intro s t i h
  cases hunit : i.unit with
  | enc =>
    obtain ⟨hsame, -⟩ := exec_enc_frame hunit h
    refine ⟨fun hf hrst => ?_, fun _ _ => ⟨hsame.dec, hsame.source, hsame.out⟩⟩
    rcases Instr.of_unit_enc hunit with rfl | (rfl | ⟨item, rfl⟩) | rfl
    · cases h; exact ⟨rfl, rfl⟩
    · cases (exec_encClose_faulted hf).symm.trans h; exact ⟨rfl, rfl⟩
    · cases (exec_encPut_faulted item hf).symm.trans h; exact ⟨rfl, rfl⟩
    · exact absurd rfl hrst
  | dec =>
    have hsame := exec_dec_frame hunit h
    refine ⟨fun _ _ => ⟨hsame.enc, hsame.sink⟩, fun hf hrst => ?_⟩
    rcases Instr.of_unit_dec hunit with rfl | ⟨cap, rfl⟩ | rfl | ⟨k, m, neg, hfields⟩
    · cases h; exact ⟨rfl, rfl, rfl⟩
    · cases (exec_decRead_faulted cap hf).symm.trans h; exact ⟨rfl, rfl, rfl⟩
    · exact absurd rfl hrst
    · rw [exec_codeword s hfields] at h
      cases (execCodeword_faulted _ hf).symm.trans h
      exact ⟨rfl, rfl, rfl⟩

/-- Settles O57: a unit is left waiting only by a call that is never answered. -/
theorem operationsReturn : Obligations.OperationsReturn := by
  intro s t i hanswered hencBusy hdecBusy h
  obtain ⟨hsink, hsource⟩ := hanswered
  cases hunit : i.unit with
  | enc =>
    obtain ⟨hsame, -⟩ := exec_enc_frame hunit h
    refine ⟨?_, by rw [hsame.decPort]; exact hdecBusy⟩
    rcases Instr.of_unit_enc hunit with rfl | hput | rfl
    · cases h; exact hencBusy
    · cases exec_putOrClose_ends hput h with
      | refused r => exact hencBusy
      | returned w running grew fault cause closed isOpen => exact hencBusy
      | faulted w running grew hasIoErr fault cause closed pos => exact hencBusy
      | waiting w running grew never flags pos => exact absurd rfl (hsink _ never)
    · cases h; exact hencBusy
  | dec =>
    have hsame := exec_dec_frame hunit h
    refine ⟨by rw [hsame.encPort]; exact hencBusy, ?_⟩
    rcases Instr.of_unit_dec hunit with rfl | ⟨cap, rfl⟩ | rfl | ⟨k, m, neg, hfields⟩
    · cases h; exact hdecBusy
    · rcases exec_decRead_ways h with ⟨-, rfl⟩ | ⟨-, -, hend⟩
      · exact hdecBusy
      · have hends := readLoop_endsFrom s.params (readFuel s.reader) cap 0 s.reader
        cases hloop : readLoop s.params (readFuel s.reader) cap 0 s.reader with rw [hloop] at hends hend
        | returned m e r => cases hend; exact hdecBusy
        | faulted c m r => cases hend; exact hdecBusy
        | blocked m r =>
          obtain ⟨-, -, -, -, hnever⟩ := hends
          exact absurd rfl (hsource _ hnever)
    · cases h; exact hdecBusy
    · obtain ⟨-, -, -, -, -, -, -, -, -, hbusy, -⟩ := codewordFrame s t i (by rw [hfields]; rfl) h
      rw [hbusy]
      exact hdecBusy

/-! ### The invariant -/

theorem encInv_reset (busy : Bool) : EncInv Enc.reset busy :=
  ⟨by decide, fun _ _ => by decide, by decide, by decide, .inl rfl⟩

theorem decInv_reset (p : Params) : DecInv p Dec.reset := ⟨by decide, by decide, by decide, .inl rfl, trivial⟩

/-- Settles O52: power-on leaves both units as their resets do. -/
theorem invariantAtReset : Obligations.InvariantAtReset := ⟨encInv_reset false, decInv_reset _⟩

/-- A ready unit ENC that is not faulted is open (R14). -/
theorem EncInv.writerOpen {s : State} (h : EncInv s.enc s.encPort.busy) (hb : s.encPort.busy = false)
    (hf : s.enc.fault = false) : s.writer.Open := by
  obtain ⟨-, hready, -⟩ := h
  obtain ⟨hpos, hlow, -⟩ := hready hf hb
  exact ⟨hpos, hlow⟩

/-- The instructions of unit ENC keep its invariant when they are issued to a ready unit (R14). -/
theorem exec_enc_inv {i : Instr} {s t : State} (hi : i.unit = .enc) (hb : s.encPort.busy = false)
    (hinv : EncInv s.enc s.encPort.busy) (h : exec i s = .next t) : EncInv t.enc t.encPort.busy := by
  rcases Instr.of_unit_enc hi with rfl | hput | rfl
  · cases h
    exact hinv
  · obtain ⟨-, -, -, hflag, hcauses⟩ := id hinv
    cases exec_putOrClose_ends hput h with
    | refused r => exact hinv
    | returned w running grew fault cause closed isOpen =>
      obtain ⟨⟨hpos, hlow⟩, hempty⟩ := isOpen (hinv.writerOpen hb running.fault)
      have hf : w.enc.fault = false := fault.trans running.fault
      exact ⟨by simp only [State.withEncResult_enc, State.withWriter_enc]; omega,
        fun _ _ => ⟨hpos, hlow, hempty⟩, fun hfaulted => absurd (hf.symm.trans hfaulted) (by decide),
        by simpa [fault, cause] using hflag, by simpa [cause] using hcauses⟩
    | faulted w running grew hasIoErr fault cause closed pos =>
      refine ⟨pos (hinv.writerOpen hb running.fault), fun hf => absurd (fault.symm.trans hf) (by decide),
        fun _ => closed.trans running.closed, ?_, .inr cause⟩
      simp [fault, cause]
    | waiting w running grew never flags pos =>
      have hf : w.enc.fault = false := flags.fault.trans running.fault
      exact ⟨pos (hinv.writerOpen hb running.fault), fun _ hready => absurd hready (by simp),
        fun hfaulted => absurd (hf.symm.trans hfaulted) (by decide),
        by simpa [flags.fault, flags.cause] using hflag, by simpa [flags.cause] using hcauses⟩
  · cases h
    exact encInv_reset _

/-- DEC.READ keeps the invariant of unit DEC (R19). -/
theorem exec_decRead_inv {cap : Nat} {s t : State} (hinv : DecInv s.params s.dec)
    (h : exec (.decRead cap) s = .next t) : DecInv s.params t.dec := by
  rcases exec_decRead_ways h with ⟨-, rfl⟩ | ⟨-, -, hend⟩
  · exact hinv
  · have hends := readLoop_endsFrom s.params (readFuel s.reader) cap 0 s.reader
    cases hloop : readLoop s.params (readFuel s.reader) cap 0 s.reader with
      (rw [hloop] at hends hend; obtain ⟨hmoved, -⟩ := hends; cases hend; exact hmoved.inv hinv)

/-- Settles O51, for each way a step can go. -/
theorem stepKeepsInvariant : Obligations.StepKeepsInvariant := by
  intro s t hinv h
  obtain ⟨henc, hdec⟩ := hinv
  rcases step_ways s with ⟨t1, hstep, hsame⟩ | ⟨i, rest, hstep, hunit, hb⟩ | ⟨i, rest, hstep, hunit, hi⟩ <;>
    rw [hstep] at h
  · cases h
    rw [State.Inv, hsame.enc, hsame.encBusy, hsame.params, hsame.dec]
    exact ⟨henc, hdec⟩
  · obtain ⟨hsame, -⟩ := exec_enc_frame hunit h
    refine ⟨exec_enc_inv (s := { s with pending := rest }) hunit hb henc h, ?_⟩
    rw [hsame.params, hsame.dec]
    exact hdec
  · have hsame := exec_dec_frame hunit h
    refine ⟨by rw [hsame.enc, hsame.encPort]; exact henc, ?_⟩
    rw [hsame.params]
    rcases hi with rfl | ⟨cap, rfl⟩ | rfl
    · cases h
      exact hdec
    · exact exec_decRead_inv (s := { s with pending := rest }) hdec h
    · cases h
      exact decInv_reset _

theorem finishEnc_next (s : State) (x : BwResult) : ∃ t, finishEnc s x = .next t := by
  cases x <;> exact ⟨_, rfl⟩

theorem finishDec_next (s : State) (x : ReadEnd) : ∃ t, finishDec s x = .next t := by
  cases x <;> exact ⟨_, rfl⟩

/-- The invariant shuts out the states of unit DEC that no rule produces (U11). -/
theorem DecInv.not_illegal {p : Params} {d : Dec} (h : DecInv p d) : d.illegal = false := by
  obtain ⟨hleft, -, -, -, hfsm⟩ := h
  rw [Dec.illegal, decide_eq_false_iff_not]
  rintro (hover | ⟨hst, hrem⟩)
  · omega
  · obtain ⟨hpos, -⟩ := fsmInv_of_shiftingBits hst hfsm
    omega

/-- Settles O53: the invariant shuts out the states that are stuck (U11). -/
theorem noStepStops : Obligations.NoStepStops := by
  intro s hinv
  obtain ⟨henc, hdec⟩ := hinv
  rcases step_ways s with ⟨t, hstep, -⟩ | ⟨i, rest, hstep, hunit, hb⟩ | ⟨i, rest, hstep, -, hi⟩
  · exact ⟨t, hstep⟩
  · rw [hstep]
    rcases Instr.of_unit_enc hunit with rfl | hput | rfl
    · exact ⟨_, rfl⟩
    · rcases exec_putOrClose_ways hput { s with pending := rest } with
        ⟨r, hrefused⟩ | ⟨hf, hpos, -, -⟩ | ⟨-, ⟨item, -, hruns⟩ | ⟨-, hruns⟩⟩
      · exact ⟨_, hrefused⟩
      · obtain ⟨hle, -⟩ := EncInv.writerOpen henc hb hf
        exact absurd (Nat.le_trans hpos hle) (by decide)
      · rw [hruns]
        exact finishEnc_next _ _
      · rw [hruns]
        exact finishEnc_next _ _
    · exact ⟨_, rfl⟩
  · rw [hstep]
    rcases hi with rfl | ⟨cap, rfl⟩ | rfl
    · exact ⟨_, rfl⟩
    · cases hf : s.dec.fault with
      | true => exact ⟨_, exec_decRead_faulted cap hf⟩
      | false =>
        rw [exec_decRead_runs (s := { s with pending := rest }) cap hf hdec.not_illegal]
        exact finishDec_next _ _
    · exact ⟨_, rfl⟩

/-! ### The two units -/

/-- The state with all of `s` but the side of unit DEC, which is that of `u`. -/
def State.withDecSide (s u : State) : State :=
  { s with dec := u.dec, decPort := u.decPort, source := u.source, out := u.out }

@[simp] theorem State.withDecSide_enc (s u : State) : (s.withDecSide u).enc = s.enc := rfl
@[simp] theorem State.withDecSide_params (s u : State) : (s.withDecSide u).params = s.params := rfl
@[simp] theorem State.withDecSide_dec (s u : State) : (s.withDecSide u).dec = u.dec := rfl
@[simp] theorem State.withDecSide_writer (s u : State) : (s.withDecSide u).writer = s.writer := rfl
@[simp] theorem State.withDecSide_reader (s u : State) : (s.withDecSide u).reader = u.reader := rfl

@[simp] theorem encRefuse_withDecSide (r : RefReason) (s u : State) :
    encRefuse r (s.withDecSide u) = (encRefuse r s).withDecSide u := rfl
@[simp] theorem decRefuse_withDecSide (r : RefReason) (s u : State) :
    decRefuse r (s.withDecSide u) = s.withDecSide (decRefuse r u) := rfl

theorem State.SameDecSide.withDecSide {s t : State} (h : s.SameDecSide t) : t.withDecSide s = t := by
  rw [State.withDecSide, ← h.dec, ← h.decPort, ← h.source, ← h.out]

theorem State.SameEncSide.withDecSide {s t : State} (h : s.SameEncSide t) : s.withDecSide t = t := by
  rw [State.withDecSide, ← h.params, ← h.enc, ← h.encPort, ← h.sink, ← h.pending]

/-- Applies a function to a next state. -/
def mapNext (f : State → State) (x : Host.Outcome State Fault Refusal) : Host.Outcome State Fault Refusal :=
  match x with
  | .next s => .next (f s)
  | .fault r => .fault r
  | .refused r => .refused r

@[simp] theorem mapNext_next (f : State → State) (s : State) : mapNext f (.next s) = .next (f s) := rfl
@[simp] theorem mapNext_fault (f : State → State) (r : Fault) : mapNext f (.fault r) = .fault r := rfl

theorem mapNext_eq_next {f : State → State} {x : Host.Outcome State Fault Refusal} {t : State} :
    mapNext f x = .next t ↔ ∃ s, x = .next s ∧ f s = t := by
  cases x <;> simp [mapNext]

@[simp] theorem finishEnc_withDecSide (s u : State) (x : BwResult) :
    finishEnc (s.withDecSide u) x = mapNext (·.withDecSide u) (finishEnc s x) := by
  cases x <;> rfl

@[simp] theorem finishDec_withDecSide (s u : State) (x : ReadEnd) :
    finishDec (s.withDecSide u) x = mapNext s.withDecSide (finishDec u x) := by
  cases x <;> rfl

/-- An instruction of unit ENC does not read the side of unit DEC (R2). -/
theorem exec_enc_withDecSide {i : Instr} (hi : i.unit = .enc) (s u : State) :
    exec i (s.withDecSide u) = mapNext (·.withDecSide u) (exec i s) := by
  rcases Instr.of_unit_enc hi with rfl | (rfl | ⟨item, rfl⟩) | rfl
  · rfl
  · simp [exec, execEncClose, apply_ite (mapNext _)]
  · simp [exec, execEncPut, apply_ite (mapNext _)]
  · rfl

/-- An instruction of unit DEC does not read the side of unit ENC (R2). -/
theorem exec_dec_withDecSide {i : Instr} (hi : i.unit = .dec) {s u : State} (hp : s.params = u.params) :
    exec i (s.withDecSide u) = mapNext s.withDecSide (exec i u) := by
  rcases Instr.of_unit_dec hi with rfl | ⟨cap, rfl⟩ | rfl | ⟨k, m, neg, hfields⟩
  · rfl
  · simp [exec, execDecRead, apply_ite (mapNext _), hp]
  · rfl
  · simp [exec_codeword _ hfields, execCodeword, apply_ite (mapNext _), hp]

theorem execAll_pair {i j : Instr} {s t : State} :
    execAll [i, j] s = .next t ↔ ∃ u, exec i s = .next u ∧ exec j u = .next t := by
  rw [execAll]
  cases exec i s with
  | next u =>
    simp only [execAll, Host.Outcome.next.injEq, exists_eq_left']
    cases exec j u <;> simp
  | fault r => simp
  | refused r => simp

/-- After an instruction of unit ENC, one of unit DEC does to its side what it did before it. -/
theorem execAll_enc_dec {i j : Instr} {s t : State} (hi : i.unit = .enc) (hj : j.unit = .dec) :
    execAll [i, j] s = .next t ↔ ∃ u v, exec i s = .next u ∧ exec j s = .next v ∧ u.withDecSide v = t := by
  rw [execAll_pair]
  refine exists_congr fun u => ?_
  rw [exists_and_left]
  refine and_congr_right fun hu => ?_
  obtain ⟨hsame, -⟩ := exec_enc_frame hi hu
  rw [← hsame.withDecSide, exec_dec_withDecSide hj hsame.params, mapNext_eq_next]
  rfl

/-- After an instruction of unit DEC, one of unit ENC does to its side what it did before it. -/
theorem execAll_dec_enc {i j : Instr} {s t : State} (hi : i.unit = .enc) (hj : j.unit = .dec) :
    execAll [j, i] s = .next t ↔ ∃ u v, exec i s = .next u ∧ exec j s = .next v ∧ u.withDecSide v = t := by
  rw [execAll_pair, exists_comm]
  refine exists_congr fun v => ?_
  simp only [and_left_comm (b := exec j s = .next v), exists_and_left]
  refine and_congr_right fun hv => ?_
  have hsame := exec_dec_frame hj hv
  rw [← hsame.withDecSide, exec_enc_withDecSide hi, mapNext_eq_next]
  rfl

/-- Settles O55: in either order each of the two instructions acts on its own side of the state. -/
theorem unitsAreIndependent : Obligations.UnitsAreIndependent := fun _ _ _ _ hi hj =>
  (execAll_enc_dec hi hj).trans (execAll_dec_enc hi hj).symm

end Machine

end Sys2Proof
end

section
/-! PROOFS. The delta round trip (spec/44_delta_wrapper.md R98 to R101): DEC.READ calls of any capacity give back
the deltas, and the running sums of the deltas are the sequence. -/
namespace Sys2Proof

theorem length_le_cws (vs : List Int) : vs.length ≤ (cws vs).length := by
  induction vs with
  | nil => exact Nat.le_refl 0
  | cons v vs ih =>
    have hcw : 1 ≤ (cw v).length := by rw [cw_length]; split <;> omega
    rw [cws, List.flatMap_cons, List.length_append, List.length_cons, ← cws]
    omega

namespace Machine

theorem runningSums_deltas (start : Int) (seq : List Int) : runningSums start (deltas start seq) = seq := by
  induction seq generalizing start with
  | nil => rfl
  | cons x seq ih =>
    rw [deltas, runningSums, add_sub_cancel, ih]

/-- The DEC.READ calls of DELTA.DEC give the values that stand before zeros, whatever their capacity (R95, R99). -/
theorem readAll_padded_stream {fuel cap k : Nat} {s : State} {ds got : List Int} (hd : s.dec.BetweenCodewords)
    (hr : s.source.Reliable s.params) (hb : s.decPort.busy = false) (hds : ∀ d ∈ ds, InRange s.params d)
    (hbits : s.reader.bits = cws ds ++ List.replicate k false) (hcap : 1 ≤ cap) (hfuel : ds.length < fuel) :
    readAll fuel cap s got = .ok (got ++ ds) := by
  induction fuel generalizing s ds got with
  | zero => omega
  | succ fuel ih =>
    rcases Nat.lt_or_ge ds.length cap with hlast | hmore
    · obtain ⟨r, hexec, hout, -, -⟩ := exec_decRead_tail hd hr hds hbits (.zeros _ k) hlast
      rw [readAll, issueDec_read _ s _ _ _ hb hexec rfl]
      simp [DecResult.reportsEos, readBack, DecResult.count, hout]
    · have hfront : (ds.take cap).length = cap := List.length_take_of_le hmore
      have hsplit : cws ds = cws (ds.take cap) ++ cws (ds.drop cap) := by
        rw [cws, cws, cws, ← List.flatMap_append, List.take_append_drop]
      rw [hsplit, List.append_assoc] at hbits
      obtain ⟨r, d, hexec, hat, hd1⟩ :=
        exec_decRead_whole hd hr (fun v hv => hds v (List.mem_of_mem_take hv)) hbits
      rw [hfront] at hexec hat
      have hrest := ih (s := (s.withReader r).withDecResult (.read cap false)) (ds := ds.drop cap)
        (got := got ++ ds.take cap) (hat.betweenCodewords hd1) hat.reliable hb
        (fun v hv => hds v (List.mem_of_mem_drop hv)) hat.bits (by rw [List.length_drop]; omega)
      rw [List.append_assoc, List.take_append_drop] at hrest
      have hback : (readBack ((s.withReader r).withDecResult (.read cap false))).1 = ds.take cap := by
        have htake := List.take_left' (l₂ := s.out.drop cap) hfront
        simpa [readBack, DecResult.count, hat.out] using htake
      rw [readAll, issueDec_read _ s _ _ _ hb hexec rfl]
      simp only [State.withDecResult_decPort, DecResult.reportsEos, Bool.false_eq_true, if_false, hback]
      exact hrest

theorem startDecoding_busy {bytes : List Byte} {s : State} (hb : s.decPort.busy = true) :
    startDecoding bytes s = .refused .busy := issueDec_busy .decRst (setSource bytes s) hb

/-- DELTA.DEC of the packed codewords of the deltas gives the sequence (R99 to R101). -/
theorem deltaDecode_packPadded {s : State} {start : Int} {seq : List Int} {cap : Nat}
    (hr : s.source.Reliable s.params) (hb : s.decPort.busy = false) (hcap : 1 ≤ cap)
    (hds : ∀ d ∈ deltas start seq, InRange s.params d) (hseq : ∀ v ∈ seq, FitsValue s.params v) :
    deltaDecode start (packPadded (cws (deltas start seq))) cap s = .ok seq := by
  obtain ⟨t, hstart, hd, hrel, htbits, hbusy, hparams⟩ :=
    startDecoding_between (bytes := packPadded (cws (deltas start seq))) hb hr
  have hbits := bytesBits_packPadded (cws (deltas start seq))
  have hfuel : (deltas start seq).length < 8 * (packPadded (cws (deltas start seq))).length + 1 := by
    have hlen := congrArg List.length hbits
    have hle := length_le_cws (deltas start seq)
    rw [bytesBits_length, List.length_append] at hlen
    omega
  rw [← hparams] at hds
  have hread := readAll_padded_stream (got := []) hd hrel hbusy hds (htbits.trans hbits) hcap hfuel
  have hfit : sumsFit s.params start (deltas start seq) = true := by
    rw [sumsFit, runningSums_deltas, List.all_eq_true]
    exact fun v hv => decide_eq_true (hseq v hv)
  rw [deltaDecode, hstart]
  simp only [hread, List.nil_append, sumAnswer, hfit, if_true, runningSums_deltas]

end Machine

open Machine

/-- Settles O60: encode packs the codewords of the deltas, and DELTA.DEC reads and sums them. -/
theorem deltaRoundTrip : Obligations.DeltaRoundTrip := by
  intro s start seq cap hp hsink hsource hencBusy hcap hds hseq
  refine ⟨packPadded (cws (deltas start seq)), encodeIsPacking s _ hp hsink hencBusy hds,
    fun hb => deltaDecode_packPadded hsource hb hcap hds hseq, fun hb => ?_⟩
  rw [deltaDecode, startDecoding_busy hb]

end Sys2Proof
end
